-- ==== Sys2Proof/Word.lean ====
section
/-! DEFINITION. The word types of the core: every data register, memory byte and operand is 8 bits, the
program counter and every memory address 16 bits (spec/00_scope.md R8, R12). -/

namespace Sys2Proof

/-- A byte: data registers, operands and memory cells (R8, R12). -/
abbrev Byte := BitVec 8

/-- A 16-bit address, and the program counter (R8, R12). -/
abbrev Addr := BitVec 16

end Sys2Proof
end

