-- ==== Sys2Proof/Config.lean ====
section
/-! DEFINITION. The eight flags of P as data, and the parameters a model of this core takes
(spec/00_scope.md R9): the sizes of the two memories, the flags after construction, the branch polarity and
the ADC variant. They are fixed for one core; every meaning covers every value of them. The spec leaves no
other value open, so there is no opaque constant here. -/

namespace Sys2Proof

/-- The flags of P, in the order the document lists them (spec/10_state.md R38, R39). -/
inductive Flag where
  | c | z | i | d | b | u | v | n
deriving DecidableEq, Repr

/-- P, the status register: eight independent booleans (R38). No instruction reads or writes P as a byte
(R39), so each flag is a Bool of its own. -/
structure Status where
  /-- Carry (R40). -/
  c : Bool
  /-- Zero (R41). -/
  z : Bool
  /-- Interrupt-disable (R42). -/
  i : Bool
  /-- Decimal (R43). -/
  d : Bool
  /-- Break (R44). -/
  b : Bool
  /-- Unused (R45). -/
  u : Bool
  /-- Overflow (R46). -/
  v : Bool
  /-- Negative (R47). -/
  n : Bool
deriving DecidableEq, Repr

/-- BCC_TAKEN_ON: the value of Carry on which BCC is taken (R9, R230, D3). -/
inductive BccPolarity where
  | carrySet | carryClear
deriving DecidableEq, Repr

/-- ADC_VARIANT: the two arms of ADC (R9, R141, D4). -/
inductive AdcVariant where
  | documented | nmos6502Binary
deriving DecidableEq, Repr

/-- The parameters of R9 that stay fixed for one core. -/
structure Config where
  /-- ROM_SIZE (D10). -/
  romSize : Nat
  /-- RAM_SIZE (D10). -/
  ramSize : Nat
  /-- INIT_P (D1). -/
  initP : Status
  /-- BCC_TAKEN_ON (D3). -/
  bccTakenOn : BccPolarity
  /-- ADC_VARIANT (D4). -/
  adcVariant : AdcVariant
deriving DecidableEq, Repr

/-- INIT_P = {I, U}, the value the spec takes (R281, D1, C1; log 3). -/
def initPSpec : Status :=
  { c := false, z := false, i := true, d := false, b := false, u := true, v := false, n := false }

/-- The parameter values the spec takes (R9), with the two sizes it leaves OPEN at 65536, the start state of
spec/95_test_vectors.md (DESIGN CHOICE, unsafe; log 2). -/
def Config.spec : Config :=
  { romSize := 65536, ramSize := 65536, initP := initPSpec,
    bccTakenOn := .carrySet, adcVariant := .documented }

/-- What the host supplies at construction: the parameters and PROGRAM (R9, R280, R283). -/
structure Launch where
  cfg : Config
  program : List Byte
deriving DecidableEq, Repr

end Sys2Proof
end

