-- ==== Sys2Proof/Syntax.lean ====
section
/-! DEFINITION. The instructions: one constructor per row of spec/opcode_table.json, in the table's order
(spec/30_encoding.md R105), each carrying its operand byte if its format has one (R101 to R104). The Illegal
variant is no row of the table; the decoder answers it beside an instruction (`Decoded`, log 13). -/

namespace Sys2Proof

/-- The addressing-mode tag: exactly four values (R101, R112, D24). -/
inductive Mode where
  | implied | immediate | zeroPage | relative
deriving DecidableEq, Repr

/-- The 26 instructions of R105. `zp`: zero-page address byte (R103). `imm`: immediate byte (R102).
`rel`: signed 8-bit branch offset (R104). -/
inductive Instr where
  | brk
  | asl (zp : Byte)
  | clc
  | and (zp : Byte)
  | sec
  | cli
  | adc (zp : Byte)
  | sei
  | sta (zp : Byte)
  | dey
  | txa
  | bcc (rel : Byte)
  | tya
  | ldy (zp : Byte)
  | ldx (zp : Byte)
  | tay
  | lda (imm : Byte)
  | tax
  | clv
  | iny
  | dex
  | cld
  | inc (zp : Byte)
  | inx
  | nop
  | sed
deriving DecidableEq, Repr

/-- What the Decoder hands to the Execution Engine: an instruction, or the Illegal variant carrying the raw
opcode byte (R54, R106). -/
inductive Decoded where
  | instr (i : Instr)
  | illegal (op : Byte)
deriving DecidableEq, Repr

/-- Why a list of bytes is no instruction. None of the three is raised by the machine itself: a byte past the
end of ROM is the fetch's own fault, and an illegal byte is deferred to execution (R106, R110). -/
inductive DecodeError where
  /-- There is no opcode byte to read. -/
  | noBytes
  /-- The opcode byte has no row in R105: the Illegal variant (R106). -/
  | illegalOpcode (op : Byte)
  /-- The opcode's format has an operand byte and none follows (R101). -/
  | missingOperand (op : Byte)
deriving DecidableEq, Repr

end Sys2Proof
end

