-- ==== Sys2Proof/WellFormed.lean ====
section
/-! DEFINITION. What is checked before a term counts as one of this hardware: that a launch is legal
(spec/00_scope.md R9, spec/20_memory.md R81), and that an instruction carries the operand byte its format
declares (spec/30_encoding.md R101). Operand widths are carried by the types (a byte cannot be out of range),
so every term of `Instr` is well-formed; a launch may not be. -/

namespace Sys2Proof

/-- The format of each instruction (R101, R105). -/
def Instr.mode : Instr → Mode
  | .brk => .implied
  | .asl _ => .zeroPage
  | .clc => .implied
  | .and _ => .zeroPage
  | .sec => .implied
  | .cli => .implied
  | .adc _ => .zeroPage
  | .sei => .implied
  | .sta _ => .zeroPage
  | .dey => .implied
  | .txa => .implied
  | .bcc _ => .relative
  | .tya => .implied
  | .ldy _ => .zeroPage
  | .ldx _ => .zeroPage
  | .tay => .implied
  | .lda _ => .immediate
  | .tax => .implied
  | .clv => .implied
  | .iny => .implied
  | .dex => .implied
  | .cld => .implied
  | .inc _ => .zeroPage
  | .inx => .implied
  | .nop => .implied
  | .sed => .implied

/-- The operand byte an instruction carries, if its format has one (R101, R109). -/
def Instr.operand : Instr → Option Byte
  | .brk => none
  | .asl zp => some zp
  | .clc => none
  | .and zp => some zp
  | .sec => none
  | .cli => none
  | .adc zp => some zp
  | .sei => none
  | .sta zp => some zp
  | .dey => none
  | .txa => none
  | .bcc rel => some rel
  | .tya => none
  | .ldy zp => some zp
  | .ldx zp => some zp
  | .tay => none
  | .lda imm => some imm
  | .tax => none
  | .clv => none
  | .iny => none
  | .dex => none
  | .cld => none
  | .inc zp => some zp
  | .inx => none
  | .nop => none
  | .sed => none

/-- A mode and an operand agree: an operand byte is present exactly in the three 2-byte formats (R101). -/
def operandFitsMode (mode : Mode) (operand : Option Byte) : Bool :=
  match mode, operand with
  | .implied, none => true
  | .implied, some _ => false
  | .immediate, o => o.isSome
  | .zeroPage, o => o.isSome
  | .relative, o => o.isSome

/-- An instruction carries the operand its format declares. -/
def Instr.wellFormed (i : Instr) : Bool := operandFitsMode i.mode i.operand

/-- The legal values of ROM_SIZE and RAM_SIZE (R9, D10). The other parameters have no illegal value. -/
def Config.legal (c : Config) : Bool :=
  decide (1 ≤ c.romSize) && decide (c.romSize ≤ 65536) &&
    decide (256 ≤ c.ramSize) && decide (c.ramSize ≤ 65536)

/-- A program fits the ROM it is loaded into (R9, R81). -/
def Launch.fits (l : Launch) : Bool := decide (l.program.length ≤ l.cfg.romSize)

/-- A legal launch: legal sizes and a program that fits (R9, R283). -/
def Launch.wellFormed (l : Launch) : Bool := l.cfg.legal && l.fits

end Sys2Proof
end

