-- ==== Sys2Proof/Decode.lean ====
section
/-! DEFINITION. The Instruction Decoder (spec/30_encoding.md R100 to R112): the opcode table as a total match
over the opcode byte, decoding of a byte sequence, and after it the encoder written from the same table. The
operand fetch from the program space, with its PC advance (R110), is Machine/Fetch.lean. -/

namespace Sys2Proof

/-- One row of the opcode table: an instruction with no operand byte, or the instruction that an operand byte
completes. -/
inductive OpcodeEntry where
  | noOperand (i : Instr)
  | withOperand (build : Byte → Instr)

/-- The opcode table of R105. The whole opcode byte selects the row; a byte with no row is Illegal (R106). DEDUCED: INC
(0xE6) has an operand byte, as its row, R109 and R194 have it, though R108 leaves 0xE6 out of the two-byte opcodes
(log 24). -/
def opcodeEntry (op : Byte) : Option OpcodeEntry :=
  match op.toNat with
  | 0x00 => some (.noOperand .brk)
  | 0x06 => some (.withOperand .asl)
  | 0x18 => some (.noOperand .clc)
  | 0x25 => some (.withOperand .and)
  | 0x38 => some (.noOperand .sec)
  | 0x58 => some (.noOperand .cli)
  | 0x65 => some (.withOperand .adc)
  | 0x78 => some (.noOperand .sei)
  | 0x85 => some (.withOperand .sta)
  | 0x88 => some (.noOperand .dey)
  | 0x8A => some (.noOperand .txa)
  | 0x90 => some (.withOperand .bcc)
  | 0x98 => some (.noOperand .tya)
  | 0xA4 => some (.withOperand .ldy)
  | 0xA6 => some (.withOperand .ldx)
  | 0xA8 => some (.noOperand .tay)
  | 0xA9 => some (.withOperand .lda)
  | 0xAA => some (.noOperand .tax)
  | 0xB8 => some (.noOperand .clv)
  | 0xC8 => some (.noOperand .iny)
  | 0xCA => some (.noOperand .dex)
  | 0xD8 => some (.noOperand .cld)
  | 0xE6 => some (.withOperand .inc)
  | 0xE8 => some (.noOperand .inx)
  | 0xEA => some (.noOperand .nop)
  | 0xF8 => some (.noOperand .sed)
  | _ => none

/-- The length of an instruction as a function of its opcode byte alone, an Illegal byte included (R108): 2 for the
formats with an operand byte, 1 for every other value. DEDUCED: the formats decide, so 0xE6 (INC, ZeroPage) is among the
two-byte opcodes, which R108's list leaves out (log 24). -/
def opcodeLength (op : Byte) : Nat :=
  match opcodeEntry op with
  | some (.withOperand _) => 2
  | some (.noOperand _) => 1
  | none => 1

/-- Decode the instruction at the head of a byte sequence and give back the bytes after it. It consumes one
byte, or two where the row has an operand, and never more (R100, R101, R111). -/
def decode : List Byte → Except DecodeError (Instr × List Byte)
  | [] => .error .noBytes
  | op :: rest =>
    match opcodeEntry op with
    | none => .error (.illegalOpcode op)
    | some (.noOperand i) => .ok (i, rest)
    | some (.withOperand build) =>
      match rest with
      | [] => .error (.missingOperand op)
      | operand :: rest' => .ok (build operand, rest')

/-- The bytes of an instruction, byte 0 first, written from the encodings of R101 and R105. -/
def encode : Instr → List Byte
  | .brk => [0x00]
  | .asl zp => [0x06, zp]
  | .clc => [0x18]
  | .and zp => [0x25, zp]
  | .sec => [0x38]
  | .cli => [0x58]
  | .adc zp => [0x65, zp]
  | .sei => [0x78]
  | .sta zp => [0x85, zp]
  | .dey => [0x88]
  | .txa => [0x8A]
  | .bcc rel => [0x90, rel]
  | .tya => [0x98]
  | .ldy zp => [0xA4, zp]
  | .ldx zp => [0xA6, zp]
  | .tay => [0xA8]
  | .lda imm => [0xA9, imm]
  | .tax => [0xAA]
  | .clv => [0xB8]
  | .iny => [0xC8]
  | .dex => [0xCA]
  | .cld => [0xD8]
  | .inc zp => [0xE6, zp]
  | .inx => [0xE8]
  | .nop => [0xEA]
  | .sed => [0xF8]

/-- The length of an instruction in bytes: 1 or 2, by its format (R100, R101). DEDUCED: INC is 2 bytes long, against the
list of R108 (log 24). -/
def Instr.length (i : Instr) : Nat :=
  match i.mode with
  | .implied => 1
  | .immediate => 2
  | .zeroPage => 2
  | .relative => 2

/-- Byte `k` of an instruction numbered as spec/opcode_table.json numbers it: bit 0 is the least significant bit
of the first byte, and bits above `nbits` are 0. -/
def tableByte (nbits w k : Nat) : Byte :=
  BitVec.ofNat 8 (w % 2 ^ nbits / 256 ^ k)

/-- The instruction the decoder reads from a table word; the longest instruction has two bytes. -/
def decodeTableWord (nbits w : Nat) : Option Instr :=
  match decode [tableByte nbits w 0, tableByte nbits w 1] with
  | .ok (i, _) => some i
  | .error _ => none

end Sys2Proof
end

