-- ==== Sys2Proof/Machine/State.lean ====
section
/-! DEFINITION. The state of one core (spec/10_state.md R30) as plain data, the reasons a run stops
(spec/60_exceptions.md R250), and the state after construction (R57). -/

namespace Sys2Proof.Machine

/-- The two address spaces (spec/20_memory.md R70). -/
inductive Space where
  | program | data
deriving DecidableEq, Repr

/-- The closed fault taxonomy of R250. A tick that raises one of these records it in `State.halt` (log 6);
`step` answers it from then on, because a faulted core has no step (R122). -/
inductive Fault where
  /-- Raised by executing the Illegal variant; `op` is the exact byte fetched (R233, R251). Safe: the core as
  documented stops there too. -/
  | illegalOpcode (op : Byte)
  /-- Raised by BRK, always with 0x00 (R232, R252). Safe: the core as documented stops there too. -/
  | unimplemented (op : Byte)
  /-- Raised by ProgRead, MemRead and MemWrite at an address at or above the size of the space (R74 to R76,
  R253). Safe: the model stops where a collaborator might return a value (D8). -/
  | memoryOutOfRange (space : Space) (addr : Addr)
  /-- Raised by ADC with D = 1 under ADC_VARIANT = Nmos6502Binary, with 0x65 (R141, R254). Safe: the model stops
  where a conventional chip goes on (D5). -/
  | decimalModeUnmodelled (op : Byte)
deriving DecidableEq, Repr

/-- Why a step has no meaning. No step of this model answers one: every instruction has its meaning. -/
inductive Refusal where
  /-- Answered by no arm of `exec`: it stands for an instruction that has no meaning yet. Safe. -/
  | notModelled (mnemonic : String)
deriving DecidableEq, Repr

/-- The run status of the core (R53). -/
inductive Halt where
  | running
  | faulted (reason : Fault)
deriving DecidableEq, Repr

/-- One Memory instance: the bytes that are not 0x00, by rising address (R77, R80; canonical form: `Memory.wf` in
Machine/Ops.lean). Its capacity is a parameter in `State.cfg`. -/
structure Memory where
  cells : List Host.Cell
deriving DecidableEq, Repr

/-- The state aggregate of R30, and the parameters of R9 carried with it (`cfg`, written by no step; log 1). -/
structure State where
  /-- A, the accumulator (R31). -/
  a : Byte
  /-- X, an index register (R32). -/
  x : Byte
  /-- Y, an index register (R33). -/
  y : Byte
  /-- SP, the inert stack pointer (R34). -/
  sp : Byte
  /-- PC, the program counter (R35). -/
  pc : Addr
  /-- P, the status register (R38). -/
  p : Status
  /-- ROM, the program space (R71). -/
  rom : Memory
  /-- RAM, the data space (R72). -/
  ram : Memory
  /-- The run status (R53). -/
  halt : Halt
  /-- The parameters of this core (R9). -/
  cfg : Config
deriving DecidableEq, Repr

/-- What one instruction, or one step, answers. -/
abbrev Result := Host.Outcome State Fault Refusal

/-- The state after construction with the spec's parameter values and an empty program (R57, R280): ROM and RAM
list nothing, so every byte of both reads 0x00 (R80). -/
def State.reset : State :=
  { a := 0x00, x := 0x00, y := 0x00, sp := 0xFD, pc := 0x0000,
    p := initPSpec, rom := ⟨[]⟩, ram := ⟨[]⟩, halt := .running, cfg := Config.spec }

end Sys2Proof.Machine
end

