-- ==== Sys2Proof/Machine/Flags.lean ====
section
/-! DEFINITION. The Status Register's primitives and helpers (spec/10_state.md R39, R48, R49) and the flag
computations of the arithmetic instructions (spec/40_arith_logic.md R141, R142). -/

namespace Sys2Proof

/-- `contains(flag)`: the flag's value (R48). -/
def Status.get (p : Status) : Flag → Bool
  | .c => p.c
  | .z => p.z
  | .i => p.i
  | .d => p.d
  | .b => p.b
  | .u => p.u
  | .v => p.v
  | .n => p.n

/-- `set(flag, b)`: writes exactly one flag (R48). -/
def Status.set (p : Status) (f : Flag) (value : Bool) : Status :=
  match f with
  | .c => { p with c := value }
  | .z => { p with z := value }
  | .i => { p with i := value }
  | .d => { p with d := value }
  | .b => { p with b := value }
  | .u => { p with u := value }
  | .v => { p with v := value }
  | .n => { p with n := value }

/-- `is_empty()`: all eight flags are 0 (R48). -/
def Status.isEmpty (p : Status) : Bool :=
  !(p.c || p.z || p.i || p.d || p.b || p.u || p.v || p.n)

/-- `set_zn(v)` (R49). -/
def Status.setZN (p : Status) (v : Byte) : Status :=
  (p.set .z (decide (v = 0#8))).set .n v.msb

/-- `pack(P)`, for inspection only (R39). PRESUMED by the spec from general knowledge (K3, D2; log 8). -/
def Status.pack (p : Status) : Byte :=
  BitVec.ofNat 8 (p.n.toNat * 128 + p.v.toNat * 64 + p.u.toNat * 32 + p.b.toNat * 16 +
    p.d.toNat * 8 + p.i.toNat * 4 + p.z.toNat * 2 + p.c.toNat)

namespace Machine

/-- Narrowing an exact result to a byte: `mod 256` (R13, R36). -/
def narrow (exact : Nat) : Byte := BitVec.ofNat 8 exact

/-- The carry out of an exact 8-bit sum (R141). -/
def carryOut (sum : Nat) : Bool := decide (255 < sum)

/-- `overflow8(a, m, r)`, used by the Nmos6502Binary arm of ADC (R142; general knowledge, K5; log 9). -/
def overflow8 (a m r : Byte) : Bool := ((a ^^^ r) &&& (m ^^^ r)).msb

/-- `P.<flag> <- b` (R14, R48). -/
def State.setFlag (s : State) (f : Flag) (value : Bool) : State := { s with p := s.p.set f value }

/-- `set_zn(v)` on the core's P (R49). -/
def State.setZN (s : State) (v : Byte) : State := { s with p := s.p.setZN v }

end Machine

end Sys2Proof
end

