-- ==== Sys2Proof/Machine/Ops.lean ====
section
/-! DEFINITION. The named operations over memory and registers: reading and writing one byte of a Memory instance
in canonical form, the register writes, the three access primitives with their range check
(spec/20_memory.md R74 to R76), and raising a fault (spec/00_scope.md R16, spec/60_exceptions.md R255, R256). -/

namespace Sys2Proof.Machine

/-- What an address that is not listed reads as: the zero fill of construction (R80). -/
def unlistedByte : Byte := 0x00

/-- The byte listed at address `a`, or what an unlisted address reads as. -/
def readCells : List Host.Cell → Nat → Byte
  | [], _ => unlistedByte
  | (b, w) :: rest, a => if b = a then w else readCells rest a

/-- A cell before a list of cells, left out where it would hold the unlisted byte. -/
def consCell (a : Nat) (v : Byte) (rest : List Host.Cell) : List Host.Cell :=
  if v = unlistedByte then rest else (a, v) :: rest

/-- Write one byte into a rising list of cells, in its place. -/
def writeCells : List Host.Cell → Nat → Byte → List Host.Cell
  | [], a, v => consCell a v []
  | (b, w) :: rest, a, v =>
    if b < a then (b, w) :: writeCells rest a v
    else if b = a then consCell a v rest
    else consCell a v ((b, w) :: rest)

/-- The cells of a byte sequence laid out from address `a` on. -/
def cellsOf : Nat → List Byte → List Host.Cell
  | _, [] => []
  | a, b :: rest => consCell a b (cellsOf (a + 1) rest)

/-- Cells at rising addresses, the first at `lo` or above, none holding the unlisted byte. -/
def cellsWf : Nat → List Host.Cell → Bool
  | _, [] => true
  | lo, (a, v) :: rest => decide (lo ≤ a) && decide (v ≠ unlistedByte) && cellsWf (a + 1) rest

/-- `read_u8`: the byte last stored at `a`, the construction value if none (R77). -/
def Memory.read (m : Memory) (a : Nat) : Byte := readCells m.cells a

/-- `write_u8`: overwrites the byte at `a` and no other (R76). -/
def Memory.write (m : Memory) (a : Nat) (v : Byte) : Memory := ⟨writeCells m.cells a v⟩

/-- Construction of a Memory instance from a byte sequence: the bytes at the low addresses, 0x00 beyond (R80). -/
def Memory.ofBytes (bytes : List Byte) : Memory := ⟨cellsOf 0 bytes⟩

/-- The whole contents of a Memory instance of capacity `size`, byte 0 first (R71, R72). -/
def Memory.bytes (m : Memory) (size : Nat) : List Byte := (List.range size).map m.read

/-- The canonical form: addresses strictly rising, no listed byte equal to the unlisted byte. -/
def Memory.wf (m : Memory) : Bool := cellsWf 0 m.cells

/-- Every listed address lies below the capacity of the instance (R71, R72). -/
def Memory.within (m : Memory) (size : Nat) : Bool := m.cells.all fun cell => decide (cell.1 < size)

/-- `A <- v` (R14). -/
def State.setA (s : State) (v : Byte) : State := { s with a := v }

/-- `X <- v` (R14). -/
def State.setX (s : State) (v : Byte) : State := { s with x := v }

/-- `Y <- v` (R14). -/
def State.setY (s : State) (v : Byte) : State := { s with y := v }

/-- `PC <- target` (R14). -/
def State.setPc (s : State) (target : Addr) : State := { s with pc := target }

/-- `PC <- (PC + 1) mod 65536` (R36, R110, R120). -/
def State.advancePc (s : State) : State := s.setPc (s.pc + 1#16)

/-- `ProgRead(addr)`: one byte of ROM, or MemoryOutOfRange(Program, addr) with no access (R74). -/
def State.progRead (s : State) (addr : Addr) : Except Fault Byte :=
  if addr.toNat < s.cfg.romSize then .ok (s.rom.read addr.toNat)
  else .error (.memoryOutOfRange .program addr)

/-- `MemRead(addr, 1)`: one byte of RAM, or MemoryOutOfRange(Data, addr) with no access (R75). -/
def State.memRead (s : State) (addr : Addr) : Except Fault Byte :=
  if addr.toNat < s.cfg.ramSize then .ok (s.ram.read addr.toNat)
  else .error (.memoryOutOfRange .data addr)

/-- `MemWrite(addr, 1, v)`: stores one byte of RAM, or MemoryOutOfRange(Data, addr) with nothing written (R76). -/
def State.memWrite (s : State) (addr : Addr) (v : Byte) : Except Fault State :=
  if addr.toNat < s.cfg.ramSize then .ok { s with ram := s.ram.write addr.toNat v }
  else .error (.memoryOutOfRange .data addr)

/-- `raise F(info)`: the run status becomes Faulted(F(info)). Nothing else is saved, pushed or redirected, and
there is no return from it (R16, R53, R256, R257). -/
def State.raise (s : State) (reason : Fault) : State := { s with halt := .faulted reason }

/-- The end of an instruction's pseudocode: its state, or the fault that ended it. A fault leaves no effect of the
instruction but the PC advances of its fetch, which `s` already holds (R122, R255). -/
def State.conclude (s : State) (outcome : Except Fault State) : Result :=
  match outcome with
  | .ok t => .next t
  | .error reason => .next (s.raise reason)

/-- The numeric code of a fault, a label only (R250, D15). -/
def Fault.code : Fault → Nat
  | .illegalOpcode _ => 1
  | .unimplemented _ => 2
  | .memoryOutOfRange _ _ => 3
  | .decimalModeUnmodelled _ => 4

end Sys2Proof.Machine
end

