-- ==== Sys2Proof/Machine/Operands.lean ====
section
/-! DEFINITION. The operand forms (spec/30_encoding.md R102 to R104): an immediate is the operand byte itself and
needs no function; a zero-page operand names a data address; a relative operand is a signed offset from the
address after the branch. -/

namespace Sys2Proof.Machine

/-- `ea = zext_16(zp)`: the data address a zero-page operand names; nothing is added to it (R73, R103). -/
def dataAddr (zp : Byte) : Addr := BitVec.ofNat 16 zp.toNat

/-- `sext_16(v) = v - 256 * v[7]`, in -128..127 (R13). -/
def sext16 (v : Byte) : Int := (v.toNat : Int) - 256 * (v.msb.toNat : Int)

/-- `(PC + sext_16(rel)) mod 65536`, with PC already past the branch (R104, R230). -/
def branchTarget (pc : Addr) (rel : Byte) : Addr := BitVec.ofInt 16 ((pc.toNat : Int) + sext16 rel)

/-- `M[ea]` of a zero-page operand (R103, R109). -/
def State.readZp (s : State) (zp : Byte) : Except Fault Byte := s.memRead (dataAddr zp)

/-- `M[ea] <- v` of a zero-page operand (R103, R109). -/
def State.writeZp (s : State) (zp v : Byte) : Except Fault State := s.memWrite (dataAddr zp) v

end Sys2Proof.Machine
end

