-- ==== Sys2Proof/Machine/ArithLogic.lean ====
section
/-! DEFINITION. AND, ADC and ASL (spec/40_arith_logic.md). When a meaning runs, PC already points past the
instruction (spec/30_encoding.md R123). -/

namespace Sys2Proof.Machine

/-- AND zp (R140). -/
def execAnd (zp : Byte) (s : State) : Result :=
  s.conclude (do
    let m ← s.readZp zp
    let r := s.a &&& m
    pure ((s.setA r).setZN r))

/-- ADC zp, ADC_VARIANT = Documented: P.C is not read, V and D play no part (R141). -/
def adcDocumented (zp : Byte) (s : State) : Except Fault State := do
  let m ← s.readZp zp
  let sum := s.a.toNat + m.toNat
  let r := narrow sum
  pure (((s.setFlag .c (carryOut sum)).setA r).setZN r)

/-- ADC zp, ADC_VARIANT = Nmos6502Binary: carry-in and overflow, and decimal mode raises before the read
(R141, R142, R254). -/
def adcNmos (zp : Byte) (s : State) : Except Fault State :=
  if s.p.d then .error (.decimalModeUnmodelled 0x65)
  else do
    let m ← s.readZp zp
    let sum := s.a.toNat + m.toNat + s.p.c.toNat
    let r := narrow sum
    pure ((((s.setFlag .v (overflow8 s.a m r)).setFlag .c (carryOut sum)).setA r).setZN r)

/-- ADC zp: the parameter ADC_VARIANT selects the arm (R141). -/
def execAdc (zp : Byte) (s : State) : Result :=
  s.conclude (match s.cfg.adcVariant with
    | .documented => adcDocumented zp s
    | .nmos6502Binary => adcNmos zp s)

/-- ASL zp, a read-modify-write (R143). -/
def execAsl (zp : Byte) (s : State) : Result :=
  s.conclude (do
    let m ← s.readZp zp
    let r := narrow (m.toNat * 2)
    let stored ← (s.setFlag .c m.msb).writeZp zp r
    pure (stored.setZN r))

end Sys2Proof.Machine
end

