-- ==== Sys2Proof/Machine/Control.lean ====
section
/-! DEFINITION. BCC, NOP, BRK and the Illegal variant (spec/44_control.md). -/

namespace Sys2Proof.Machine

/-- Whether a BCC is taken, by BCC_TAKEN_ON and Carry (R230). -/
def branchTaken (polarity : BccPolarity) (carry : Bool) : Bool :=
  match polarity with
  | .carrySet => carry
  | .carryClear => !carry

/-- BCC rel: the target is not checked (R230). -/
def execBcc (rel : Byte) (s : State) : Result :=
  .next (if branchTaken s.cfg.bccTakenOn s.p.c then s.setPc (branchTarget s.pc rel) else s)

/-- NOP: no state change (R231). -/
def execNop (s : State) : Result := .next s

/-- BRK: always Unimplemented(0x00), and nothing is pushed or fetched (R232, D6). -/
def execBrk (s : State) : Result := s.conclude (.error (.unimplemented 0x00))

/-- The Illegal variant: always IllegalOpcode(op) (R233). -/
def execIllegal (op : Byte) (s : State) : Result := s.conclude (.error (.illegalOpcode op))

end Sys2Proof.Machine
end

