-- ==== Sys2Proof/Machine/FlagInstr.lean ====
section
/-! DEFINITION. CLC, CLD, CLI, CLV, SEC, SED and SEI (spec/43_flag.md): each writes exactly one flag. -/

namespace Sys2Proof.Machine

/-- CLC (R210). -/
def execClc (s : State) : Result := .next (s.setFlag .c false)

/-- CLD (R211). -/
def execCld (s : State) : Result := .next (s.setFlag .d false)

/-- CLI: I masks nothing, and the instruction is not privileged (R212, R258, R262). -/
def execCli (s : State) : Result := .next (s.setFlag .i false)

/-- CLV (R213). -/
def execClv (s : State) : Result := .next (s.setFlag .v false)

/-- SEC (R214). -/
def execSec (s : State) : Result := .next (s.setFlag .c true)

/-- SED (R215). -/
def execSed (s : State) : Result := .next (s.setFlag .d true)

/-- SEI: I masks nothing, and the instruction is not privileged (R216, R258, R262). -/
def execSei (s : State) : Result := .next (s.setFlag .i true)

end Sys2Proof.Machine
end

