-- ==== Sys2Proof/Machine/IncDec.lean ====
section
/-! DEFINITION. INX, INY, DEX, DEY and INC (spec/42_inc_dec.md): the wrap sets no carry. -/

namespace Sys2Proof.Machine

/-- `(v + 1) mod 256` (R36). -/
def increment (v : Byte) : Byte := v + 1#8

/-- `(v - 1) mod 256`, the mathematical mod (R36, R192). -/
def decrement (v : Byte) : Byte := v - 1#8

/-- INX (R190). -/
def execInx (s : State) : Result := .next ((s.setX (increment s.x)).setZN (increment s.x))

/-- INY (R191). -/
def execIny (s : State) : Result := .next ((s.setY (increment s.y)).setZN (increment s.y))

/-- DEX (R192). -/
def execDex (s : State) : Result := .next ((s.setX (decrement s.x)).setZN (decrement s.x))

/-- DEY (R193). -/
def execDey (s : State) : Result := .next ((s.setY (decrement s.y)).setZN (decrement s.y))

/-- INC zp, a read-modify-write (R194). -/
def execInc (zp : Byte) (s : State) : Result :=
  s.conclude (do
    let m ← s.readZp zp
    let r := increment m
    let stored ← s.writeZp zp r
    pure (stored.setZN r))

end Sys2Proof.Machine
end

