-- ==== Sys2Proof/Machine/LoadStore.lean ====
section
/-! DEFINITION. LDA, LDX, LDY, STA and the transfers (spec/41_load_store_transfer.md). -/

namespace Sys2Proof.Machine

/-- LDA #imm (R160). -/
def execLda (imm : Byte) (s : State) : Result := .next ((s.setA imm).setZN imm)

/-- LDX zp (R161). -/
def execLdx (zp : Byte) (s : State) : Result :=
  s.conclude (do
    let m ← s.readZp zp
    pure ((s.setX m).setZN m))

/-- LDY zp (R162). -/
def execLdy (zp : Byte) (s : State) : Result :=
  s.conclude (do
    let m ← s.readZp zp
    pure ((s.setY m).setZN m))

/-- STA zp: no flag effect (R163). -/
def execSta (zp : Byte) (s : State) : Result := s.conclude (s.writeZp zp s.a)

/-- TAX (R164). -/
def execTax (s : State) : Result := .next ((s.setX s.a).setZN s.a)

/-- TAY (R165). -/
def execTay (s : State) : Result := .next ((s.setY s.a).setZN s.a)

/-- TXA (R166). -/
def execTxa (s : State) : Result := .next ((s.setA s.x).setZN s.x)

/-- TYA (R167). -/
def execTya (s : State) : Result := .next ((s.setA s.y).setZN s.y)

end Sys2Proof.Machine
end

