-- ==== Sys2Proof/Machine/Dispatch.lean ====
section
/-! DEFINITION. `execute(ins)` for the 26 instructions of spec/30_encoding.md R105: one arm per constructor, each one
call of its meaning. The Illegal variant is dispatched in Step.lean. -/

namespace Sys2Proof.Machine

def exec (i : Instr) (s : State) : Host.Outcome State Fault Refusal :=
  match i with
  | .brk => Sys2Proof.Machine.execBrk s
  | .asl zp => Sys2Proof.Machine.execAsl zp s
  | .clc => Sys2Proof.Machine.execClc s
  | .and zp => Sys2Proof.Machine.execAnd zp s
  | .sec => Sys2Proof.Machine.execSec s
  | .cli => Sys2Proof.Machine.execCli s
  | .adc zp => Sys2Proof.Machine.execAdc zp s
  | .sei => Sys2Proof.Machine.execSei s
  | .sta zp => Sys2Proof.Machine.execSta zp s
  | .dey => Sys2Proof.Machine.execDey s
  | .txa => Sys2Proof.Machine.execTxa s
  | .bcc rel => Sys2Proof.Machine.execBcc rel s
  | .tya => Sys2Proof.Machine.execTya s
  | .ldy zp => Sys2Proof.Machine.execLdy zp s
  | .ldx zp => Sys2Proof.Machine.execLdx zp s
  | .tay => Sys2Proof.Machine.execTay s
  | .lda imm => Sys2Proof.Machine.execLda imm s
  | .tax => Sys2Proof.Machine.execTax s
  | .clv => Sys2Proof.Machine.execClv s
  | .iny => Sys2Proof.Machine.execIny s
  | .dex => Sys2Proof.Machine.execDex s
  | .cld => Sys2Proof.Machine.execCld s
  | .inc zp => Sys2Proof.Machine.execInc zp s
  | .inx => Sys2Proof.Machine.execInx s
  | .nop => Sys2Proof.Machine.execNop s
  | .sed => Sys2Proof.Machine.execSed s

end Sys2Proof.Machine
end

