-- ==== Sys2Proof/Machine/Fetch.lean ====
section
/-! DEFINITION. The fetch and decode part of a tick (spec/30_encoding.md R110, R120): the opcode byte is read and PC
advanced, then the operand byte if the opcode's row has one, and PC advanced again. -/

namespace Sys2Proof.Machine

/-- What fetch and decode hand on: a decoded instruction with PC past its bytes, or a state whose fetch faulted. -/
inductive Fetched where
  | decoded (d : Decoded) (s : State)
  | raised (s : State)
deriving DecidableEq, Repr

/-- `decode(op)` of R110, PC already past the opcode byte. An illegal opcode reads no operand (R106); an operand
fetch that faults leaves PC at the operand's address (R255). -/
def decodeAt (op : Byte) (s : State) : Fetched :=
  match opcodeEntry op with
  | none => .decoded (.illegal op) s
  | some (.noOperand i) => .decoded (.instr i) s
  | some (.withOperand build) =>
    match s.progRead s.pc with
    | .error reason => .raised (s.raise reason)
    | .ok operand => .decoded (.instr (build operand)) s.advancePc

/-- The opcode fetch of R120, then decode. An opcode fetch that faults does not advance PC (D25). -/
def fetch (s : State) : Fetched :=
  match s.progRead s.pc with
  | .error reason => .raised (s.raise reason)
  | .ok op => decodeAt op s.advancePc

end Sys2Proof.Machine
end

