-- ==== Sys2Proof/Machine/Step.lean ====
section
/-! DEFINITION. One tick (spec/30_encoding.md R120 to R122): fetch, decode, execute, from a running core; a faulted
core has no step. -/

namespace Sys2Proof.Machine

/-- `tick()` of R120 as one step. A tick that raises a fault answers the state that records it (R122; log 6); from a
faulted state there is no step, and the recorded reason is answered. -/
def step (s : State) : Host.Outcome State Fault Refusal :=
  match s.halt with
  | .faulted reason => .fault reason
  | .running =>
    match fetch s with
    | .raised t => .next t
    | .decoded (.illegal op) t => execIllegal op t
    | .decoded (.instr i) t => exec i t

/-- The state in which the instruction of a table word stands where the next step fetches: its bytes in ROM at PC and
PC + 1, the core running, and ROM large enough for both addresses (log 7). -/
def State.withFetchWord (s : State) (nbits w : Nat) : State :=
  let a0 := s.pc.toNat
  let a1 := (s.pc + 1#16).toNat
  { s with
    rom := (s.rom.write a0 (tableByte nbits w 0)).write a1 (tableByte nbits w 1)
    halt := .running
    cfg := { s.cfg with romSize := if a0 < s.cfg.romSize ∧ a1 < s.cfg.romSize then s.cfg.romSize else 65536 } }

end Sys2Proof.Machine
end

