-- ==== Sys2Proof/Machine/Signals.lean ====
section
/-! DEFINITION. The control-signal record the Decoder hands to the Execution Engine (spec/30_encoding.md R109): one
row per kind of instruction, fixed by the kind, beside the mode and the fetched operand. The meanings do not read it;
it is the spec's second account of every instruction, and statements hold the meanings against it. -/

namespace Sys2Proof.Machine

/-- The column "ALU operation"; `idle` is the spec's dash. -/
inductive AluOp where
  | idle | shiftLeft | flagClear | flagSet | bitAnd | add | pass | increment | decrement | addOffset
deriving DecidableEq, Repr

/-- What the columns "sources" and "destination" name; `mem` is M[ea]. -/
inductive Place where
  | a | x | y | pc | mem | imm
  | flag (f : Flag)
deriving DecidableEq, Repr

/-- The column "PC control"; `idle` is the spec's dash. -/
inductive PcControl where
  | idle | sequential | conditionalBranch
deriving DecidableEq, Repr

/-- The record of R109. `raises` is its column "fault", besides the MemoryOutOfRange any data access may raise. -/
structure ControlSignals where
  kind : String
  mode : Mode
  operand : Option Byte
  alu : AluOp
  sources : List Place
  destination : Option Place
  dataRead : Bool
  dataWrite : Bool
  flagsWritten : List Flag
  pcControl : PcControl
  raises : Option Fault
deriving DecidableEq, Repr

/-- A row with no data access and a sequential PC. -/
def signalsPlain (kind : String) (alu : AluOp) (sources : List Place) (destination : Option Place)
    (flagsWritten : List Flag) : ControlSignals :=
  { kind := kind, mode := .implied, operand := none, alu := alu, sources := sources, destination := destination,
    dataRead := false, dataWrite := false, flagsWritten := flagsWritten, pcControl := .sequential, raises := none }

/-- A row of the ZeroPage format. -/
def signalsZp (kind : String) (zp : Byte) (alu : AluOp) (sources : List Place) (destination : Place)
    (dataRead dataWrite : Bool) (flagsWritten : List Flag) : ControlSignals :=
  { kind := kind, mode := .zeroPage, operand := some zp, alu := alu, sources := sources,
    destination := some destination, dataRead := dataRead, dataWrite := dataWrite, flagsWritten := flagsWritten,
    pcControl := .sequential, raises := none }

/-- A row that only raises its fault (BRK, Illegal). -/
def signalsRaising (kind : String) (reason : Fault) : ControlSignals :=
  { kind := kind, mode := .implied, operand := none, alu := .idle, sources := [], destination := none,
    dataRead := false, dataWrite := false, flagsWritten := [], pcControl := .idle, raises := some reason }

/-- The row of ADC, whose sources, flags and fault depend on ADC_VARIANT. -/
def signalsAdc (zp : Byte) : AdcVariant → ControlSignals
  | .documented => signalsZp "ADC" zp .add [.a, .mem] .a true false [.c, .z, .n]
  | .nmos6502Binary =>
    { signalsZp "ADC" zp .add [.a, .mem, .flag .c] .a true false [.c, .z, .n, .v] with
      raises := some (.decimalModeUnmodelled 0x65) }

/-- The table of R109 for the 26 instructions, in its order. -/
def signalsOf (variant : AdcVariant) : Instr → ControlSignals
  | .brk => signalsRaising "BRK" (.unimplemented 0x00)
  | .asl zp => signalsZp "ASL" zp .shiftLeft [.mem] .mem true true [.c, .z, .n]
  | .clc => signalsPlain "CLC" .flagClear [] (some (.flag .c)) [.c]
  | .and zp => signalsZp "AND" zp .bitAnd [.a, .mem] .a true false [.z, .n]
  | .sec => signalsPlain "SEC" .flagSet [] (some (.flag .c)) [.c]
  | .cli => signalsPlain "CLI" .flagClear [] (some (.flag .i)) [.i]
  | .adc zp => signalsAdc zp variant
  | .sei => signalsPlain "SEI" .flagSet [] (some (.flag .i)) [.i]
  | .sta zp => signalsZp "STA" zp .pass [.a] .mem false true []
  | .dey => signalsPlain "DEY" .decrement [.y] (some .y) [.z, .n]
  | .txa => signalsPlain "TXA" .pass [.x] (some .a) [.z, .n]
  | .bcc rel =>
    { signalsPlain "BCC" .addOffset [.flag .c, .pc] (some .pc) [] with
      mode := .relative, operand := some rel, pcControl := .conditionalBranch }
  | .tya => signalsPlain "TYA" .pass [.y] (some .a) [.z, .n]
  | .ldy zp => signalsZp "LDY" zp .pass [.mem] .y true false [.z, .n]
  | .ldx zp => signalsZp "LDX" zp .pass [.mem] .x true false [.z, .n]
  | .tay => signalsPlain "TAY" .pass [.a] (some .y) [.z, .n]
  | .lda imm =>
    { signalsPlain "LDA" .pass [.imm] (some .a) [.z, .n] with mode := .immediate, operand := some imm }
  | .tax => signalsPlain "TAX" .pass [.a] (some .x) [.z, .n]
  | .clv => signalsPlain "CLV" .flagClear [] (some (.flag .v)) [.v]
  | .iny => signalsPlain "INY" .increment [.y] (some .y) [.z, .n]
  | .dex => signalsPlain "DEX" .decrement [.x] (some .x) [.z, .n]
  | .cld => signalsPlain "CLD" .flagClear [] (some (.flag .d)) [.d]
  | .inc zp => signalsZp "INC" zp .increment [.mem] .mem true true [.z, .n]
  | .inx => signalsPlain "INX" .increment [.x] (some .x) [.z, .n]
  | .nop => signalsPlain "NOP" .idle [] none []
  | .sed => signalsPlain "SED" .flagSet [] (some (.flag .d)) [.d]

/-- The control-signal record of a decoded opcode, the Illegal row included (R109). -/
def Decoded.signals (variant : AdcVariant) : Decoded → ControlSignals
  | .instr i => signalsOf variant i
  | .illegal op => signalsRaising "Illegal" (.illegalOpcode op)

end Sys2Proof.Machine
end

