-- ==== Sys2Proof/Machine/Datapath.lean ====
section
/-! DEFINITION. A datapath driven by the control-signal record of spec/30_encoding.md R109 alone: operand values from the
record's sources, one ALU operation, the flags it lists, and the destination it names: a store only under "data write", a
branch only under "PC control" = conditional branch. `exec` does not call it; it is the second account of every
instruction that a statement holds the meanings equal to. -/

namespace Sys2Proof.Machine

/-- The value a source supplies: a register, the data byte `m`, the operand byte, or a flag as 0 or 1. -/
def sourceValue (s : State) (operand m : Byte) : Place → Nat
  | .a => s.a.toNat
  | .x => s.x.toNat
  | .y => s.y.toNat
  | .pc => s.pc.toNat
  | .mem => m.toNat
  | .imm => operand.toNat
  | .flag f => (s.p.get f).toNat

/-- The exact result of an ALU operation on the values of its sources, before it is narrowed to the destination's width;
`idle` and the flag operations produce no value. A branch adds the signed offset to its second source (R104). -/
def aluExact (operand : Byte) : AluOp → List Nat → Nat
  | .shiftLeft, [v] => v * 2
  | .bitAnd, [v, w] => v &&& w
  | .add, vs => vs.sum
  | .pass, [v] => v
  | .increment, [v] => v + 1
  | .decrement, [v] => v + 255
  | .addOffset, [_, pc] => (((pc : Int) + sext16 operand) % 65536).toNat
  | _, _ => 0

/-- The value a written flag takes. -/
def flagValue (alu : AluOp) (s : State) (m : Byte) (exact : Nat) (f : Flag) : Bool :=
  match alu, f with
  | .flagClear, _ => false
  | .flagSet, _ => true
  | _, .c => carryOut exact
  | _, .z => decide (narrow exact = 0#8)
  | _, .n => (narrow exact).msb
  | _, .v => overflow8 s.a m (narrow exact)
  | _, other => s.p.get other

/-- The fault of the column "fault", if its condition holds: always for BRK and Illegal, on D = 1 for ADC. -/
def raisedNow (sig : ControlSignals) (s : State) : Option Fault :=
  if sig.alu = .idle ∨ s.p.d = true then sig.raises else none

/-- Whether a conditional branch is taken: its first source supplies the condition (R230). -/
def branchCondition (polarity : BccPolarity) : List Nat → Bool
  | condition :: _ => branchTaken polarity (decide (condition = 1))
  | [] => false

/-- Where the result goes, with the values of the sources: a byte to memory only under "data write", an address to PC
only under "conditional branch" and only where the condition holds. -/
def writeDestination (sig : ControlSignals) (s : State) (values : List Nat) (exact : Nat) : Except Fault State :=
  match sig.destination with
  | some .a => .ok (s.setA (narrow exact))
  | some .x => .ok (s.setX (narrow exact))
  | some .y => .ok (s.setY (narrow exact))
  | some .mem => if sig.dataWrite then s.writeZp (sig.operand.getD 0) (narrow exact) else .ok s
  | some .pc =>
    .ok (if sig.pcControl = .conditionalBranch ∧ branchCondition s.cfg.bccTakenOn values = true
      then s.setPc (BitVec.ofNat 16 exact) else s)
  | some .imm => .ok s
  | some (.flag _) => .ok s
  | none => .ok s

/-- One execution by the record: raise, or read, compute, write the flags, write the destination. -/
def datapath (sig : ControlSignals) (s : State) : Result :=
  s.conclude (match raisedNow sig s with
    | some reason => .error reason
    | none => do
      let operand := sig.operand.getD 0
      let m ← if sig.dataRead then s.readZp operand else pure 0
      let values := sig.sources.map (sourceValue s operand m)
      let exact := aluExact operand sig.alu values
      let p := sig.flagsWritten.foldl (fun p f => p.set f (flagValue sig.alu s m exact f)) s.p
      writeDestination sig { s with p := p } values exact)

end Sys2Proof.Machine
end

