-- ==== Sys2Proof/Machine/HostInterface.lean ====
section
/-! DEFINITION. What the host may do to the core (spec/70_reset_and_hazards.md R280, R284, R285): construct it, call
tick, inspect it, stop. -/

namespace Sys2Proof.Machine

/-- The state construction builds from a launch (R57, R280, R281). -/
def constructedState (l : Launch) : State :=
  { a := 0x00, x := 0x00, y := 0x00, sp := 0xFD, pc := 0x0000, p := l.cfg.initP,
    rom := Memory.ofBytes l.program, ram := Memory.ofBytes [], halt := .running, cfg := l.cfg }

/-- `construct(PROGRAM, ROM_SIZE, RAM_SIZE)`: an over-long program is rejected and no core exists (R81, R280, D9). -/
def construct (l : Launch) : Option State := if l.fits then some (constructedState l) else none

/-- `tick()` as the host calls it: no return value, and no effect on a faulted core (R121, R122, R284). -/
def tick (s : State) : State :=
  match step s with
  | .next t => t
  | .fault _ => s
  | .refused _ => s

/-- The state after a number of ticks (R285). -/
def runTicks : Nat → State → State
  | 0, s => s
  | k + 1, s => runTicks k (tick s)

/-- What the host reads between ticks: the inspect row of R284, part by part, and P also as the packed byte of R39
(log 8). -/
structure Inspection where
  a : Byte
  x : Byte
  y : Byte
  sp : Byte
  pc : Addr
  p : Status
  /-- The ROM_SIZE bytes of the program space. -/
  rom : List Byte
  /-- The RAM_SIZE bytes of the data space. -/
  ram : List Byte
  halt : Halt
  packedP : Byte
deriving DecidableEq, Repr

/-- `inspect`: the core does nothing, so it is a function of the state alone (R284). -/
def inspect (s : State) : Inspection :=
  { a := s.a, x := s.x, y := s.y, sp := s.sp, pc := s.pc, p := s.p,
    rom := s.rom.bytes s.cfg.romSize, ram := s.ram.bytes s.cfg.ramSize, halt := s.halt, packedP := s.p.pack }

end Sys2Proof.Machine
end

