-- ==== Sys2Proof/Safety.lean ====
section
/-! DEFINITION. What counts as a safe run, in the terms claims use: a run of N ticks ends well if the core is still
Running after the N-th (spec/70_reset_and_hazards.md R285; a faulted state is never a successful end,
spec/60_exceptions.md R257). And the invariant of a constructed core. -/

namespace Sys2Proof.Machine

/-- The core is Running (R53). -/
abbrev State.Running (s : State) : Prop := s.halt = .running

/-- A run of `n` ticks from `s` ends successfully (R285). A claim about an end state asks for this. -/
abbrev runCompletes (n : Nat) (s : State) : Prop := (runTicks n s).Running

/-- What a recorded fault says of the state it was recorded in: an illegal byte is one that has no row in the opcode
table (R251), BRK's opcode is 0x00 (R252), a program address is PC and out of range (R253, R255), no data access is
out of range (R90), and decimal mode was met by ADC under the NMOS variant (R254). -/
def FaultSound (s : State) : Fault → Prop
  | .illegalOpcode op => opcodeEntry op = none
  | .unimplemented op => op = 0x00
  | .memoryOutOfRange .program addr => addr = s.pc ∧ s.cfg.romSize ≤ addr.toNat
  | .memoryOutOfRange .data _ => False
  | .decimalModeUnmodelled op => op = 0x65 ∧ s.cfg.adcVariant = .nmos6502Binary ∧ s.p.d = true

/-- The invariant of a core constructed from a legal launch. -/
structure State.Inv (s : State) : Prop where
  /-- The parameters are legal (R9). -/
  legal : s.cfg.legal = true
  /-- ROM is in canonical form. -/
  rom_wf : s.rom.wf = true
  /-- ROM lists no address beyond its size (R71). -/
  rom_within : s.rom.within s.cfg.romSize = true
  /-- RAM is in canonical form. -/
  ram_wf : s.ram.wf = true
  /-- RAM lists no address beyond its size (R72). -/
  ram_within : s.ram.within s.cfg.ramSize = true
  /-- SP holds 0xFD for the whole life of the core (R34). -/
  sp_constant : s.sp = 0xFD
  /-- B keeps its construction value forever (R44). -/
  b_constant : s.p.b = s.cfg.initP.b
  /-- U keeps its construction value forever (R45). -/
  u_constant : s.p.u = s.cfg.initP.u
  /-- Under Documented no instruction sets V (R46, R213). -/
  v_documented : s.cfg.adcVariant = .documented → s.p.v = true → s.cfg.initP.v = true
  /-- A recorded fault is sound. -/
  fault_sound : ∀ reason, s.halt = .faulted reason → FaultSound s reason

end Sys2Proof.Machine
end

