-- ==== Sys2Proof/Certificates/Slice0/Obligations.lean ====
section
/-! DEFINITION. The statements for the provers, from the numbered rules of spec/. Where a statement rests on a decision
the spec marks as its own (D<n>), its docstring says so and names the log entry. -/

open Sys2Proof Sys2Proof.Machine

namespace Sys2Proof.Stated

/-- P with Z and N describing `v` and the other six flags kept (R49). -/
def withZN (p : Status) (v : Byte) : Status := { p with z := decide (v = 0#8), n := v.msb }

/-- The row of R105: format, bytes, and that decoding consumes exactly those bytes. -/
def EncodedAs (i : Instr) (mode : Mode) (bytes : List Byte) : Prop :=
  i.mode = mode ∧ encode i = bytes ∧ ∀ rest, decode (bytes ++ rest) = .ok (i, rest)

/-- The data byte a zero-page operand names (R103). -/
def dataByte (s : State) (zp : Byte) : Byte := s.ram.read (dataAddr zp).toNat

/-- A zero-page operand in range of RAM; every one is when RAM_SIZE is legal (R90). -/
def InRange (s : State) (zp : Byte) : Prop := (dataAddr zp).toNat < s.cfg.ramSize

/-- Every byte of RAM but the one a zero-page operand names reads as before. -/
def OtherBytesKept (s t : State) (zp : Byte) : Prop :=
  ∀ a, a ≠ (dataAddr zp).toNat → t.ram.read a = s.ram.read a

/-- The state that records a fault and changes nothing else (R122, R255). -/
def recording (s : State) (reason : Fault) : State := { s with halt := .faulted reason }

/-- A function of the next state, applied to an answer. -/
def mapNext (f : State → State) : Result → Result
  | .next t => .next (f t)
  | .fault r => .fault r
  | .refused r => .refused r

/-- The byte of program space at an address. -/
def romByte (s : State) (addr : Addr) : Byte := s.rom.read addr.toNat

/-- The 26 opcode bytes of R105. -/
def mappedOpcodes : List Byte :=
  [0x00, 0x06, 0x18, 0x25, 0x38, 0x58, 0x65, 0x78, 0x85, 0x88, 0x8A, 0x90, 0x98] ++
    [0xA4, 0xA6, 0xA8, 0xA9, 0xAA, 0xB8, 0xC8, 0xCA, 0xD8, 0xE6, 0xE8, 0xEA, 0xF8]

/-- The opcodes of the formats Immediate, ZeroPage and Relative (R101, R105): R108's eight and 0xE6 (log 24). -/
def twoByteOpcodes : List Byte := [0x06, 0x25, 0x65, 0x85, 0x90, 0xA4, 0xA6, 0xA9, 0xE6]

/-- The ranges of Illegal values as R107 lists them. -/
def illegalRanges : List (Nat × Nat) :=
  [(0x01, 0x05), (0x07, 0x17), (0x19, 0x24), (0x26, 0x37), (0x39, 0x57), (0x59, 0x64), (0x66, 0x77)] ++
    [(0x79, 0x84), (0x86, 0x87), (0x89, 0x89), (0x8B, 0x8F), (0x91, 0x97), (0x99, 0xA3), (0xA5, 0xA5)] ++
    [(0xA7, 0xA7), (0xAB, 0xB7), (0xB9, 0xC7), (0xC9, 0xC9), (0xCB, 0xD7), (0xD9, 0xE5), (0xE7, 0xE7)] ++
    [(0xE9, 0xE9), (0xEB, 0xF7), (0xF9, 0xFF)]

/-- Where PC stands and what was at fault when a tick from `s` records a fault (the table of R255). -/
def FaultPlace (s : State) (pc : Addr) : Fault → Prop
  | .memoryOutOfRange .program addr => addr = pc ∧ s.cfg.romSize ≤ addr.toNat ∧ (pc = s.pc ∨ pc = s.pc + 1#16)
  | .memoryOutOfRange .data addr =>
    pc = s.pc + 2#16 ∧ addr = dataAddr (romByte s (s.pc + 1#16)) ∧ s.cfg.ramSize ≤ addr.toNat
  | .illegalOpcode op => pc = s.pc + 1#16 ∧ op = romByte s s.pc ∧ op ∉ mappedOpcodes
  | .unimplemented op => pc = s.pc + 1#16 ∧ op = 0x00 ∧ romByte s s.pc = 0x00
  | .decimalModeUnmodelled op => pc = s.pc + 2#16 ∧ op = 0x65 ∧ romByte s s.pc = 0x65 ∧ s.p.d = true

/-- The byte an instruction's destination holds in a state: the result its rule passes to set_zn (R49, R109). -/
def resultByte (variant : AdcVariant) (i : Instr) (t : State) : Option Byte :=
  match (signalsOf variant i).destination with
  | some .a => some t.a
  | some .x => some t.x
  | some .y => some t.y
  | some .mem => i.operand.map (dataByte t)
  | some .pc => none
  | some .imm => none
  | some (.flag _) => none
  | none => none

/-- No instruction reads this flag: R41, R42, R44 to R47, and R43 under ADC_VARIANT = Documented. -/
def UnreadFlag (variant : AdcVariant) : Flag → Prop
  | .c => False
  | .d => variant = .documented
  | .z => True
  | .i => True
  | .b => True
  | .u => True
  | .v => True
  | .n => True

/-- The seven instructions that reach RAM (R72). -/
def ReachesRam (i : Instr) : Prop :=
  ∃ zp, i = .and zp ∨ i = .adc zp ∨ i = .ldx zp ∨ i = .ldy zp ∨ i = .sta zp ∨ i = .asl zp ∨ i = .inc zp

end Sys2Proof.Stated

open Sys2Proof.Stated

/-! ## Encoding -/

/-- R105, R106: the 26 rows of the opcode table, and every other byte is Illegal, whatever follows it. The row of INC is
R105's, two bytes (R108 lists 0xE6 otherwise; log 24). -/
def Obligations.OpcodeTableDecodes : Prop :=
  (∀ b : Byte,
    EncodedAs .brk .implied [0x00] ∧ EncodedAs (.asl b) .zeroPage [0x06, b] ∧ EncodedAs .clc .implied [0x18] ∧
    EncodedAs (.and b) .zeroPage [0x25, b] ∧ EncodedAs .sec .implied [0x38] ∧ EncodedAs .cli .implied [0x58] ∧
    EncodedAs (.adc b) .zeroPage [0x65, b] ∧ EncodedAs .sei .implied [0x78] ∧
    EncodedAs (.sta b) .zeroPage [0x85, b] ∧ EncodedAs .dey .implied [0x88] ∧ EncodedAs .txa .implied [0x8A] ∧
    EncodedAs (.bcc b) .relative [0x90, b] ∧ EncodedAs .tya .implied [0x98] ∧
    EncodedAs (.ldy b) .zeroPage [0xA4, b] ∧ EncodedAs (.ldx b) .zeroPage [0xA6, b] ∧
    EncodedAs .tay .implied [0xA8] ∧ EncodedAs (.lda b) .immediate [0xA9, b] ∧ EncodedAs .tax .implied [0xAA] ∧
    EncodedAs .clv .implied [0xB8] ∧ EncodedAs .iny .implied [0xC8] ∧ EncodedAs .dex .implied [0xCA] ∧
    EncodedAs .cld .implied [0xD8] ∧ EncodedAs (.inc b) .zeroPage [0xE6, b] ∧ EncodedAs .inx .implied [0xE8] ∧
    EncodedAs .nop .implied [0xEA] ∧ EncodedAs .sed .implied [0xF8]) ∧
  ∀ (op : Byte) (rest : List Byte), op ∉ mappedOpcodes → decode (op :: rest) = .error (.illegalOpcode op)

/-- Decoding and encoding are inverse: a byte sequence decodes to an instruction exactly when it begins with that
instruction's bytes, and what is left over is what follows them (R100, R101, R105, R106). -/
def Obligations.DecodeInvertsEncode : Prop :=
  ∀ (bytes rest : List Byte) (i : Instr), decode bytes = .ok (i, rest) ↔ bytes = encode i ++ rest

/-- R107: the Illegal bytes are exactly the ranges the rule lists. -/
def Obligations.IllegalBytesAreTheListedRanges : Prop :=
  ∀ (op : Byte) (rest : List Byte),
    decode (op :: rest) = .error (.illegalOpcode op) ↔
      ∃ range ∈ illegalRanges, range.1 ≤ op.toNat ∧ op.toNat ≤ range.2

/-! ## Fetch and step -/

/-- R110, R111, R123: fetch reads exactly the instruction's bytes, at PC and PC + 1, and leaves PC past them and
nothing else changed; for an Illegal byte it reads that byte alone. -/
def Obligations.FetchConsumesExactlyTheInstruction : Prop :=
  (∀ (s t : State) (i : Instr), fetch s = .decoded (.instr i) t →
    t = { s with pc := s.pc + BitVec.ofNat 16 i.length } ∧
    encode i = (List.range i.length).map fun k => romByte s (s.pc + BitVec.ofNat 16 k)) ∧
  ∀ (s t : State) (op : Byte), fetch s = .decoded (.illegal op) t →
    t = { s with pc := s.pc + 1#16 } ∧ op = romByte s s.pc

/-- R120, R123: a running core whose bytes at PC decode to an instruction, all of them in range of ROM, executes that
instruction with PC past its bytes. -/
def Obligations.StepRunsTheDecodedInstruction : Prop :=
  ∀ (s : State) (i : Instr) (rest : List Byte), s.Running →
    decode [romByte s s.pc, romByte s (s.pc + 1#16)] = .ok (i, rest) →
    (∀ k, k < i.length → (s.pc + BitVec.ofNat 16 k).toNat < s.cfg.romSize) →
    step s = exec i { s with pc := s.pc + BitVec.ofNat 16 i.length }

/-- R233, R255: a running core at a byte with no row in the opcode table records IllegalOpcode with that byte, PC one
past it, and changes nothing else (D7, D14; that the step answers this state is log 6). -/
def Obligations.IllegalOpcodeIsRecorded : Prop :=
  ∀ s : State, s.Running → s.pc.toNat < s.cfg.romSize → romByte s s.pc ∉ mappedOpcodes →
    step s = .next (recording { s with pc := s.pc + 1#16 } (.illegalOpcode (romByte s s.pc)))

/-- R110, R120, R255: an opcode fetch out of range leaves PC, an operand fetch out of range leaves PC one further, and
nothing else changes (D8, D25; log 6, 10, 17). -/
def Obligations.FetchOutOfRangeIsRecorded : Prop :=
  (∀ s : State, s.Running → s.cfg.romSize ≤ s.pc.toNat →
    step s = .next (recording s (.memoryOutOfRange .program s.pc))) ∧
  ∀ (s : State) (i : Instr) (rest : List Byte), s.Running → s.pc.toNat < s.cfg.romSize →
    decode [romByte s s.pc, romByte s (s.pc + 1#16)] = .ok (i, rest) → i.length = 2 →
    s.cfg.romSize ≤ (s.pc + 1#16).toNat →
    step s = .next (recording { s with pc := s.pc + 1#16 } (.memoryOutOfRange .program (s.pc + 1#16)))

/-- R122, R257: a faulted core has no step, and any number of ticks changes nothing (D14; log 6). -/
def Obligations.FaultedCoreTakesNoStep : Prop :=
  ∀ (s : State) (reason : Fault), s.halt = .faulted reason →
    step s = .fault reason ∧ ∀ n, runTicks n s = s

/-- From a running core a tick always has its outcome (R106, R120, R124, which give a next state or a fault; that a
faulting tick too is answered as a next state is the model's choice, log 6), no step of any state is refused, and a tick
and a run of ticks follow the step: to its next state, and nowhere where there is none (R122, R284, R285). -/
def Obligations.RunningCoreAlwaysSteps : Prop :=
  (∀ s : State, s.Running → ∃ t, step s = .next t) ∧ (∀ (s : State) (r : Refusal), step s ≠ .refused r) ∧
    (∀ s t : State, step s = .next t → tick s = t ∧ ∀ n, runTicks (n + 1) s = runTicks n t) ∧
    (∀ (s : State) (r : Fault), step s = .fault r → tick s = s) ∧ ∀ s : State, runTicks 0 s = s

/-- R255: faults are precise. A tick that records a fault changes nothing but PC and the run status, and PC stands where
the rule's table says for that fault (D5 to D8, D14, D25; that a faulting tick answers a next state is log 6). -/
def Obligations.FaultsArePrecise : Prop :=
  ∀ (s t : State) (reason : Fault), s.Running → step s = .next t → t.halt = .faulted reason →
    t = recording { s with pc := t.pc } reason ∧ FaultPlace s t.pc reason

/-- R257, R285: a run that has faulted never recovers, so a run of more ticks completes only if every shorter one
does. -/
def Obligations.FaultsAreForever : Prop :=
  ∀ (n k : Nat) (s : State), runCompletes (n + k) s → runCompletes n s

/-- R230, R287: a taken BCC at address a goes to a + 2 plus the signed offset, a BCC not taken to a + 2, modulo 65536,
and the tick changes nothing else. The polarity is the parameter BCC_TAKEN_ON (D3; log 4). -/
def Obligations.BranchIsRelativeToTheNextInstruction : Prop :=
  ∀ s : State, s.Running → romByte s s.pc = 0x90 → s.pc.toNat < s.cfg.romSize →
    (s.pc + 1#16).toNat < s.cfg.romSize →
    step s = .next { s with
      pc := if (s.cfg.bccTakenOn = .carrySet ∧ s.p.c = true) ∨ (s.cfg.bccTakenOn = .carryClear ∧ s.p.c = false)
        then s.pc + 2#16 + (romByte s (s.pc + 1#16)).signExtend 16 else s.pc + 2#16 }

/-! ## Construction and the invariant -/

/-- R80: ROM is the program and then zeros, RAM is all zeros. -/
def Obligations.ConstructedMemories : Prop :=
  ∀ (l : Launch) (s : State), construct l = some s →
    (∀ a, s.rom.read a = l.program.getD a 0x00) ∧ ∀ a, s.ram.read a = 0x00

/-- R57, R280: every register, flag and the run status after construction; P is the parameter INIT_P, whose spec value
{I, U} is D1's (log 3). -/
def Obligations.ConstructedRegisters : Prop :=
  ∀ (l : Launch) (s : State), construct l = some s →
    s.a = 0x00 ∧ s.x = 0x00 ∧ s.y = 0x00 ∧ s.sp = 0xFD ∧ s.pc = 0x0000 ∧ s.p = l.cfg.initP ∧
      s.halt = .running ∧ s.cfg = l.cfg

/-- R81: construction is rejected exactly for a program longer than ROM_SIZE (D9; log 10). -/
def Obligations.ConstructionRejectsOverlongPrograms : Prop :=
  ∀ l : Launch, construct l = none ↔ l.cfg.romSize < l.program.length

/-- The reset state is what construction gives for the spec's parameter values and an empty program; the parameter values
are the spec's decisions D1, D3, D4 and the model's choice of sizes (log 2 to 5). -/
def Obligations.ResetIsConstruction : Prop :=
  construct { cfg := Config.spec, program := [] } = some State.reset ∧
    State.reset.a = 0x00 ∧ State.reset.x = 0x00 ∧ State.reset.y = 0x00 ∧ State.reset.sp = 0xFD ∧
    State.reset.pc = 0x0000 ∧ State.reset.halt = .running ∧
    (∀ f, State.reset.p.get f = true ↔ f = .i ∨ f = .u) ∧
    (∀ a, State.reset.rom.read a = 0x00) ∧ ∀ a, State.reset.ram.read a = 0x00

/-- The invariant holds at reset. -/
def Obligations.ResetMeetsInvariant : Prop := State.reset.Inv

/-- A legal launch constructs a core, and the core meets the invariant (R9, R283). -/
def Obligations.LegalLaunchMeetsInvariant : Prop :=
  ∀ l : Launch, l.wellFormed = true → ∃ s, construct l = some s ∧ s.Inv

/-- The invariant is kept by every step: legal parameters, canonical memories within their sizes, SP = 0xFD (R34), B and
U at their construction values (R44, R45), V never set under Documented (R46), and only sound faults recorded
(R251 to R254). -/
def Obligations.StepKeepsInvariant : Prop :=
  ∀ s t : State, s.Inv → step s = .next t → t.Inv

/-- Every state a legal launch reaches, by any number of ticks, meets the invariant. -/
def Obligations.ReachableStatesMeetInvariant : Prop :=
  ∀ (l : Launch) (s : State) (n : Nat), l.wellFormed = true → construct l = some s → (runTicks n s).Inv

/-- R90: with RAM_SIZE at least 256 and ROM_SIZE = 65536 no tick records MemoryOutOfRange. -/
def Obligations.FullSizeMemoriesNeverFault : Prop :=
  ∀ (s t : State) (space : Space) (addr : Addr), 256 ≤ s.cfg.ramSize → s.cfg.romSize = 65536 → s.Running →
    step s = .next t → t.halt ≠ .faulted (.memoryOutOfRange space addr)

/-! ## Flags, operands, memory -/

/-- R49: set_zn writes Z and N and leaves everything else untouched. -/
def Obligations.SetZnWritesZeroAndNegative : Prop :=
  ∀ (s : State) (v : Byte), s.setZN v = { s with p := { s.p with z := decide (v = 0#8), n := v.getLsbD 7 } }

/-- R48: set writes one flag and no other, contains reads it, is_empty holds exactly when all eight are 0. -/
def Obligations.FlagPrimitives : Prop :=
  ∀ (s : State) (f g : Flag) (b : Bool),
    (s.setFlag f b).p.get f = b ∧ (g ≠ f → (s.setFlag f b).p.get g = s.p.get g) ∧
      s.setFlag f b = { s with p := s.p.set f b } ∧ (s.p.isEmpty = true ↔ ∀ h, s.p.get h = false)

/-- R39: the packed byte of P. The positions are general knowledge in the spec (K3, D2; log 8). -/
def Obligations.PackedStatusLayout : Prop :=
  ∀ p : Status,
    p.pack.toNat = p.n.toNat * 128 + p.v.toNat * 64 + p.u.toNat * 32 + p.b.toNat * 16 + p.d.toNat * 8 +
        p.i.toNat * 4 + p.z.toNat * 2 + p.c.toNat ∧
      p.pack.getLsbD 0 = p.c ∧ p.pack.getLsbD 1 = p.z ∧ p.pack.getLsbD 2 = p.i ∧ p.pack.getLsbD 3 = p.d ∧
      p.pack.getLsbD 4 = p.b ∧ p.pack.getLsbD 5 = p.u ∧ p.pack.getLsbD 6 = p.v ∧ p.pack.getLsbD 7 = p.n

/-- R142: overflow8 of a sum with carry-in is signed overflow: the exact signed sum lies outside -128..127. The formula is
general knowledge in the spec (K5; log 9). -/
def Obligations.OverflowIsSignedOverflow : Prop :=
  ∀ (a m : Byte) (carry : Bool),
    overflow8 a m (narrow (a.toNat + m.toNat + carry.toNat)) = true ↔
      a.toInt + m.toInt + (carry.toNat : Int) < -128 ∨ 127 < a.toInt + m.toInt + (carry.toNat : Int)

/-- R36: every update wraps modulo its register's width; PC goes from 0xFFFF to 0x0000. -/
def Obligations.UpdatesWrapModuloWidth : Prop :=
  (∀ s : State, s.advancePc.pc.toNat = (s.pc.toNat + 1) % 65536) ∧
    (∀ s : State, s.pc = 0xFFFF → s.advancePc.pc = 0x0000) ∧
    (∀ (pc : Addr) (rel : Byte), ((branchTarget pc rel).toNat : Int) = ((pc.toNat : Int) + sext16 rel) % 65536) ∧
    (∀ v : Byte, (increment v).toNat = (v.toNat + 1) % 256 ∧ (decrement v).toNat = (v.toNat + 255) % 256) ∧
    ∀ n : Nat, (narrow n).toNat = n % 256

/-- R13, R104: sext_16 is the byte read as two's complement, in -128..127, and a branch target is PC plus the
sign-extended offset. -/
def Obligations.BranchOffsetIsSigned : Prop :=
  ∀ (pc : Addr) (rel : Byte),
    sext16 rel = (rel.toNat : Int) - 256 * (if rel.getLsbD 7 then 1 else 0) ∧
      -128 ≤ sext16 rel ∧ sext16 rel ≤ 127 ∧ branchTarget pc rel = pc + rel.signExtend 16

/-- R74 to R76: the three primitives access an address below the size of their space and fault above it, with no access
(D8; log 10). -/
def Obligations.AccessesAreRangeChecked : Prop :=
  ∀ (s : State) (addr : Addr) (v : Byte),
    (addr.toNat < s.cfg.romSize → s.progRead addr = .ok (romByte s addr)) ∧
    (s.cfg.romSize ≤ addr.toNat → s.progRead addr = .error (.memoryOutOfRange .program addr)) ∧
    (addr.toNat < s.cfg.ramSize → s.memRead addr = .ok (s.ram.read addr.toNat) ∧
      ∃ t, s.memWrite addr v = .ok t) ∧
    (s.cfg.ramSize ≤ addr.toNat → s.memRead addr = .error (.memoryOutOfRange .data addr) ∧
      s.memWrite addr v = .error (.memoryOutOfRange .data addr))

/-- R70, R76, R77: after a data write, that address reads as the byte written, every other data address and every program
address reads as before, and no register changes. That the two spaces share no byte is D22 (log 11). -/
def Obligations.DataWriteThenRead : Prop :=
  ∀ (s t : State) (addr : Addr) (v : Byte), s.ram.wf = true → s.memWrite addr v = .ok t →
    (∀ b, t.memRead b = if b = addr then .ok v else s.memRead b) ∧ (∀ b, t.progRead b = s.progRead b) ∧
      t = { s with ram := t.ram }

/-- R250: the codes of the four faults, the spec's own labels (D15). -/
def Obligations.FaultCodes : Prop :=
  ∀ (op : Byte) (space : Space) (addr : Addr),
    (Fault.illegalOpcode op).code = 1 ∧ (Fault.unimplemented op).code = 2 ∧
      (Fault.memoryOutOfRange space addr).code = 3 ∧ (Fault.decimalModeUnmodelled op).code = 4

/-! ## Results: every instruction, with its whole next state -/

/-- R140 in range: A is masked with the data byte, Z and N describe the result, nothing else changes. -/
def Obligations.AndResult : Prop :=
  ∀ (zp : Byte) (s : State), InRange s zp →
    exec (.and zp) s =
      .next { s with a := s.a &&& dataByte s zp, p := withZN s.p (s.a &&& dataByte s zp) }

/-- R141, the arm Documented, in range: the 8-bit sum without carry-in, C from the carry out, V untouched, D without
effect (D4, D5; log 5). -/
def Obligations.AdcDocumentedResult : Prop :=
  ∀ (zp : Byte) (s : State), s.cfg.adcVariant = .documented → InRange s zp →
    exec (.adc zp) s =
      .next { s with
        a := s.a + dataByte s zp
        p := withZN { s.p with c := decide (256 ≤ s.a.toNat + (dataByte s zp).toNat) } (s.a + dataByte s zp) }

/-- R141 and R142, the arm Nmos6502Binary: with D = 1 it records DecimalModeUnmodelled before any access, in range or not;
with D = 0 and in range it adds the carry-in and sets V by overflow8 (D4, D5, K5; log 5, 6, 9). -/
def Obligations.AdcNmosResult : Prop :=
  ∀ (zp : Byte) (s : State), s.cfg.adcVariant = .nmos6502Binary →
    (s.p.d = true → exec (.adc zp) s = .next (recording s (.decimalModeUnmodelled 0x65))) ∧
    (s.p.d = false → InRange s zp →
      exec (.adc zp) s =
        .next { s with
          a := s.a + dataByte s zp + BitVec.ofNat 8 s.p.c.toNat
          p := withZN
            { s.p with
              c := decide (256 ≤ s.a.toNat + (dataByte s zp).toNat + s.p.c.toNat)
              v := overflow8 s.a (dataByte s zp) (s.a + dataByte s zp + BitVec.ofNat 8 s.p.c.toNat) }
            (s.a + dataByte s zp + BitVec.ofNat 8 s.p.c.toNat) })

/-- R143 in range: the data byte is shifted left in place, C takes its bit 7, Z and N describe the result, and no other
byte, register or flag changes. -/
def Obligations.AslResult : Prop :=
  ∀ (zp : Byte) (s : State), s.ram.wf = true → InRange s zp →
    ∃ t, exec (.asl zp) s = .next t ∧ dataByte t zp = dataByte s zp <<< 1 ∧ OtherBytesKept s t zp ∧
      t = { s with
        ram := t.ram
        p := withZN { s.p with c := (dataByte s zp).getLsbD 7 } (dataByte s zp <<< 1) }

/-- R160: LDA, its one form, and its result. -/
def Obligations.LdaResult : Prop :=
  ∀ (imm : Byte) (s : State),
    EncodedAs (.lda imm) .immediate [0xA9, imm] ∧
      (∀ rest, decode (0xA5 :: rest) = .error (.illegalOpcode 0xA5)) ∧
      exec (.lda imm) s = .next { s with a := imm, p := withZN s.p imm }

/-- R161, R162 in range: the data byte goes to X or Y, Z and N describe it, nothing else changes. -/
def Obligations.LdxLdyResult : Prop :=
  ∀ (zp : Byte) (s : State), InRange s zp →
    exec (.ldx zp) s = .next { s with x := dataByte s zp, p := withZN s.p (dataByte s zp) } ∧
    exec (.ldy zp) s = .next { s with y := dataByte s zp, p := withZN s.p (dataByte s zp) }

/-- R163 in range: A is stored, no flag, register or other byte changes. -/
def Obligations.StaResult : Prop :=
  ∀ (zp : Byte) (s : State), s.ram.wf = true → InRange s zp →
    ∃ t, exec (.sta zp) s = .next t ∧ dataByte t zp = s.a ∧ OtherBytesKept s t zp ∧ t = { s with ram := t.ram }

/-- R164 to R167: the transfers, their encodings, and their whole next states. -/
def Obligations.TransferResults : Prop :=
  EncodedAs .tax .implied [0xAA] ∧ EncodedAs .tay .implied [0xA8] ∧ EncodedAs .txa .implied [0x8A] ∧
    EncodedAs .tya .implied [0x98] ∧
    ∀ s : State,
      exec .tax s = .next { s with x := s.a, p := withZN s.p s.a } ∧
      exec .tay s = .next { s with y := s.a, p := withZN s.p s.a } ∧
      exec .txa s = .next { s with a := s.x, p := withZN s.p s.x } ∧
      exec .tya s = .next { s with a := s.y, p := withZN s.p s.y }

/-- R190 to R193: the register increments and decrements, their encodings, and their whole next states. -/
def Obligations.RegisterStepResults : Prop :=
  EncodedAs .inx .implied [0xE8] ∧ EncodedAs .iny .implied [0xC8] ∧ EncodedAs .dex .implied [0xCA] ∧
    EncodedAs .dey .implied [0x88] ∧
    ∀ s : State,
      exec .inx s = .next { s with x := s.x + 1#8, p := withZN s.p (s.x + 1#8) } ∧
      exec .iny s = .next { s with y := s.y + 1#8, p := withZN s.p (s.y + 1#8) } ∧
      exec .dex s = .next { s with x := s.x - 1#8, p := withZN s.p (s.x - 1#8) } ∧
      exec .dey s = .next { s with y := s.y - 1#8, p := withZN s.p (s.y - 1#8) }

/-- R194 in range: the data byte is incremented in place, Z and N describe the result, C and everything else is kept. -/
def Obligations.IncResult : Prop :=
  ∀ (zp : Byte) (s : State), s.ram.wf = true → InRange s zp →
    ∃ t, exec (.inc zp) s = .next t ∧ dataByte t zp = dataByte s zp + 1#8 ∧ OtherBytesKept s t zp ∧
      t = { s with ram := t.ram, p := withZN s.p (dataByte s zp + 1#8) }

/-- R210 to R216: each flag instruction, its encoding, and its whole next state: one flag is written. -/
def Obligations.FlagInstructionResults : Prop :=
  EncodedAs .clc .implied [0x18] ∧ EncodedAs .cld .implied [0xD8] ∧ EncodedAs .cli .implied [0x58] ∧
    EncodedAs .clv .implied [0xB8] ∧ EncodedAs .sec .implied [0x38] ∧ EncodedAs .sed .implied [0xF8] ∧
    EncodedAs .sei .implied [0x78] ∧
    ∀ s : State,
      exec .clc s = .next { s with p := { s.p with c := false } } ∧
      exec .cld s = .next { s with p := { s.p with d := false } } ∧
      exec .cli s = .next { s with p := { s.p with i := false } } ∧
      exec .clv s = .next { s with p := { s.p with v := false } } ∧
      exec .sec s = .next { s with p := { s.p with c := true } } ∧
      exec .sed s = .next { s with p := { s.p with d := true } } ∧
      exec .sei s = .next { s with p := { s.p with i := true } }

/-- R230: BCC under both polarities, PC already past the branch; it reads C and writes nothing but PC (D3; log 4). -/
def Obligations.BccResult : Prop :=
  ∀ (rel : Byte) (s : State),
    exec (.bcc rel) s =
      .next { s with
        pc := if (s.cfg.bccTakenOn = .carrySet ∧ s.p.c = true) ∨ (s.cfg.bccTakenOn = .carryClear ∧ s.p.c = false)
          then s.pc + rel.signExtend 16 else s.pc }

/-- R231: NOP changes nothing, its tick only advances PC by one, and no other opcode behaves so: every other instruction
has a state from which its tick ends otherwise than with PC one past its opcode and nothing else changed (execution
starts with PC past the whole instruction, R123), and an Illegal byte never ends so. -/
def Obligations.NopResult : Prop :=
  EncodedAs .nop .implied [0xEA] ∧ (∀ s : State, exec .nop s = .next s) ∧
    (∀ s : State, s.Running → s.pc.toNat < s.cfg.romSize → romByte s s.pc = 0xEA →
      step s = .next { s with pc := s.pc + 1#16 }) ∧
    (∀ i : Instr, i ≠ .nop → ∃ s : State, s.Running ∧
      exec i s ≠ .next { s with pc := s.pc - BitVec.ofNat 16 (i.length - 1) }) ∧
    ∀ (op : Byte) (s : State), s.Running → execIllegal op s ≠ .next s

/-- R232: BRK is one byte and always records Unimplemented(0x00); nothing else changes (D6; log 6). -/
def Obligations.BrkResult : Prop :=
  EncodedAs .brk .implied [0x00] ∧ ∀ s : State, exec .brk s = .next (recording s (.unimplemented 0x00))

/-- The seven data instructions out of range of RAM record MemoryOutOfRange(Data, ea) and change nothing else; ADC where
it reaches its access (R75, R76, R255; D8; log 6, 10). Every operand is in range of a legal RAM. -/
def Obligations.DataOutOfRangeIsRecorded : Prop :=
  ∀ (zp : Byte) (s : State), ¬ InRange s zp →
    (∀ i ∈ [Instr.and zp, .asl zp, .ldx zp, .ldy zp, .sta zp, .inc zp],
      exec i s = .next (recording s (.memoryOutOfRange .data (dataAddr zp)))) ∧
    (s.cfg.adcVariant = .documented ∨ s.p.d = false →
      exec (.adc zp) s = .next (recording s (.memoryOutOfRange .data (dataAddr zp))))

/-! ## Frames and whole-machine rules, over all instructions -/

/-- R50: an instruction writes only the flags its rule lists. -/
def Obligations.OnlyListedFlagsChange : Prop :=
  ∀ (i : Instr) (s t : State), exec i s = .next t →
    ∀ f, f ∉ (signalsOf s.cfg.adcVariant i).flagsWritten → t.p.get f = s.p.get f

/-- An instruction writes only its destination register; only BCC writes PC; SP, ROM and the parameters are never written;
the run status changes only by recording a fault that leaves all else as it was. That no store reaches ROM is D22 (log
11); that a fault is recorded in a next state is log 6. -/
def Obligations.OnlyTheDestinationChanges : Prop :=
  ∀ (i : Instr) (s t : State), exec i s = .next t →
    ((signalsOf s.cfg.adcVariant i).destination ≠ some .a → t.a = s.a) ∧
    ((signalsOf s.cfg.adcVariant i).destination ≠ some .x → t.x = s.x) ∧
    ((signalsOf s.cfg.adcVariant i).destination ≠ some .y → t.y = s.y) ∧
    ((∀ rel, i ≠ .bcc rel) → t.pc = s.pc) ∧
    t.sp = s.sp ∧ t.rom = s.rom ∧ t.cfg = s.cfg ∧
    (t.halt = s.halt ∨ ∃ reason, t = recording s reason)

/-- R72, R73: STA, ASL and INC store one byte, at the data address zext_16(zp) of their operand; every other byte of RAM,
and all of RAM for every other instruction, reads as before. -/
def Obligations.OnlyTheStoredByteChanges : Prop :=
  ∀ (i : Instr) (s t : State), exec i s = .next t →
    (∀ zp, i = .sta zp ∨ i = .asl zp ∨ i = .inc zp →
      (dataAddr zp).toNat = zp.toNat ∧ OtherBytesKept s t zp) ∧
    ((∀ zp, i ≠ .sta zp ∧ i ≠ .asl zp ∧ i ≠ .inc zp) → ∀ a, t.ram.read a = s.ram.read a)

/-- R109: every meaning, and the Illegal variant, computes exactly what a datapath driven by its control-signal record
computes; the datapath stores only under data write and branches only under PC control = conditional branch, by the
record's sources and ALU operation. The record's rows are pinned by ControlSignalRows. -/
def Obligations.MeaningsMatchControlSignals : Prop :=
  (∀ (i : Instr) (s : State), exec i s = datapath (signalsOf s.cfg.adcVariant i) s) ∧
    ∀ (op : Byte) (s : State), execIllegal op s = datapath (Decoded.signals s.cfg.adcVariant (.illegal op)) s

/-- R51: after an instruction that passes a result to set_zn, and did not fault, Z and N describe the byte its destination
holds. -/
def Obligations.ZeroAndNegativeDescribeTheResult : Prop :=
  ∀ (i : Instr) (s t : State) (r : Byte), s.ram.wf = true → exec i s = .next t → t.Running →
    resultByte s.cfg.adcVariant i t = some r → (∀ zp, i ≠ .sta zp) →
    t.p.z = decide (r = 0#8) ∧ t.p.n = r.getLsbD 7

/-- R71, R87: execution neither reads nor writes the program space, so no tick changes an instruction byte. It rests on
the disjoint spaces, decision D22 (log 11, an unsafe DESIGN CHOICE): of a core with one unified memory it would be
false. -/
def Obligations.ProgramSpaceIsNeverData : Prop :=
  (∀ (i : Instr) (s : State) (rom : Memory),
    exec i { s with rom := rom } = mapNext (fun t => { t with rom := rom }) (exec i s)) ∧
  ∀ (n : Nat) (s : State), (runTicks n s).rom = s.rom ∧ (runTicks n s).cfg = s.cfg

/-- R34: SP is inert (D21; log 22). A step from a state with another SP differs in nothing but SP. -/
def Obligations.StackPointerIsInert : Prop :=
  ∀ (s : State) (v : Byte), step { s with sp := v } = mapNext (fun t => { t with sp := v }) (step s)

/-- R41 to R47: a flag that no instruction reads steers nothing. A step from a state with that flag changed differs at most
in that flag. -/
def Obligations.UnreadFlagsSteerNothing : Prop :=
  ∀ (s t : State) (f : Flag) (b : Bool), UnreadFlag s.cfg.adcVariant f → step s = .next t →
    ∃ b', step (s.setFlag f b) = .next (t.setFlag f b')

/-- R72: only seven instructions reach RAM. Any other does the same whatever RAM holds, and keeps it. -/
def Obligations.OnlySevenInstructionsReachRam : Prop :=
  ∀ (i : Instr) (s : State) (ram : Memory), ¬ ReachesRam i →
    exec i { s with ram := ram } = mapNext (fun t => { t with ram := ram }) (exec i s)

/-- R31 to R33, R109: a register that is neither source nor destination of an instruction plays no part in it; in
particular X and Y never index memory. -/
def Obligations.UnnamedRegistersPlayNoPart : Prop :=
  ∀ (i : Instr) (s : State) (v : Byte),
    (.a ∉ (signalsOf s.cfg.adcVariant i).sources → (signalsOf s.cfg.adcVariant i).destination ≠ some .a →
      exec i { s with a := v } = mapNext (fun t => { t with a := v }) (exec i s)) ∧
    (.x ∉ (signalsOf s.cfg.adcVariant i).sources → (signalsOf s.cfg.adcVariant i).destination ≠ some .x →
      exec i { s with x := v } = mapNext (fun t => { t with x := v }) (exec i s)) ∧
    (.y ∉ (signalsOf s.cfg.adcVariant i).sources → (signalsOf s.cfg.adcVariant i).destination ≠ some .y →
      exec i { s with y := v } = mapNext (fun t => { t with y := v }) (exec i s))

/-- The interface that places a word (log 7): from any state with a canonical ROM, the step after placing a table word runs
exactly the instruction the decoder reads from it. -/
def Obligations.PlacedWordRunsNext : Prop :=
  ∀ (s : State) (nbits w : Nat) (i : Instr), s.rom.wf = true → decodeTableWord nbits w = some i →
    step (s.withFetchWord nbits w) =
      exec i { s.withFetchWord nbits w with pc := s.pc + BitVec.ofNat 16 i.length }

/-- R73: the zero page is the data addresses 0x0000 to 0x00FF; a zero-page operand byte names the address zext_16(zp), and
its read and write are MemRead and MemWrite there: no index register is added and nothing wraps. -/
def Obligations.ZeroPageOperandNamesItsAddress : Prop :=
  (∀ zp : Byte, dataAddr zp = zp.setWidth 16 ∧ (dataAddr zp).toNat = zp.toNat) ∧
    (∀ addr : Addr, addr.toNat ≤ 0x00FF ↔ ∃ zp, dataAddr zp = addr) ∧
    ∀ (s : State) (zp v x y : Byte),
      s.readZp zp = s.memRead (zp.setWidth 16) ∧ s.writeZp zp v = s.memWrite (zp.setWidth 16) v ∧
        ({ s with x := x, y := y } : State).readZp zp = s.readZp zp

/-- R109: the control-signal table, row by row and column by column: kind, mode, operand, ALU operation, sources,
destination, data read, data write, flags written, PC control, fault. The fault of ADC is raised on D = 1 (AdcNmosResult). -/
def Obligations.ControlSignalRows : Prop :=
  (∀ (variant : AdcVariant) (b : Byte),
    signalsOf variant .brk =
      ⟨"BRK", .implied, none, .idle, [], none, false, false, [], .idle, some (.unimplemented 0x00)⟩ ∧
    signalsOf variant (.asl b) =
      ⟨"ASL", .zeroPage, some b, .shiftLeft, [.mem], some .mem, true, true, [.c, .z, .n], .sequential, none⟩ ∧
    signalsOf variant .clc =
      ⟨"CLC", .implied, none, .flagClear, [], some (.flag .c), false, false, [.c], .sequential, none⟩ ∧
    signalsOf variant (.and b) =
      ⟨"AND", .zeroPage, some b, .bitAnd, [.a, .mem], some .a, true, false, [.z, .n], .sequential, none⟩ ∧
    signalsOf variant .sec =
      ⟨"SEC", .implied, none, .flagSet, [], some (.flag .c), false, false, [.c], .sequential, none⟩ ∧
    signalsOf variant .cli =
      ⟨"CLI", .implied, none, .flagClear, [], some (.flag .i), false, false, [.i], .sequential, none⟩ ∧
    signalsOf .documented (.adc b) =
      ⟨"ADC", .zeroPage, some b, .add, [.a, .mem], some .a, true, false, [.c, .z, .n], .sequential, none⟩ ∧
    signalsOf .nmos6502Binary (.adc b) =
      ⟨"ADC", .zeroPage, some b, .add, [.a, .mem, .flag .c], some .a, true, false, [.c, .z, .n, .v], .sequential, some (.decimalModeUnmodelled 0x65)⟩ ∧
    signalsOf variant .sei =
      ⟨"SEI", .implied, none, .flagSet, [], some (.flag .i), false, false, [.i], .sequential, none⟩ ∧
    signalsOf variant (.sta b) =
      ⟨"STA", .zeroPage, some b, .pass, [.a], some .mem, false, true, [], .sequential, none⟩ ∧
    signalsOf variant .dey =
      ⟨"DEY", .implied, none, .decrement, [.y], some .y, false, false, [.z, .n], .sequential, none⟩ ∧
    signalsOf variant .txa =
      ⟨"TXA", .implied, none, .pass, [.x], some .a, false, false, [.z, .n], .sequential, none⟩ ∧
    signalsOf variant (.bcc b) =
      ⟨"BCC", .relative, some b, .addOffset, [.flag .c, .pc], some .pc, false, false, [], .conditionalBranch, none⟩ ∧
    signalsOf variant .tya =
      ⟨"TYA", .implied, none, .pass, [.y], some .a, false, false, [.z, .n], .sequential, none⟩ ∧
    signalsOf variant (.ldy b) =
      ⟨"LDY", .zeroPage, some b, .pass, [.mem], some .y, true, false, [.z, .n], .sequential, none⟩ ∧
    signalsOf variant (.ldx b) =
      ⟨"LDX", .zeroPage, some b, .pass, [.mem], some .x, true, false, [.z, .n], .sequential, none⟩ ∧
    signalsOf variant .tay =
      ⟨"TAY", .implied, none, .pass, [.a], some .y, false, false, [.z, .n], .sequential, none⟩ ∧
    signalsOf variant (.lda b) =
      ⟨"LDA", .immediate, some b, .pass, [.imm], some .a, false, false, [.z, .n], .sequential, none⟩ ∧
    signalsOf variant .tax =
      ⟨"TAX", .implied, none, .pass, [.a], some .x, false, false, [.z, .n], .sequential, none⟩ ∧
    signalsOf variant .clv =
      ⟨"CLV", .implied, none, .flagClear, [], some (.flag .v), false, false, [.v], .sequential, none⟩ ∧
    signalsOf variant .iny =
      ⟨"INY", .implied, none, .increment, [.y], some .y, false, false, [.z, .n], .sequential, none⟩ ∧
    signalsOf variant .dex =
      ⟨"DEX", .implied, none, .decrement, [.x], some .x, false, false, [.z, .n], .sequential, none⟩ ∧
    signalsOf variant .cld =
      ⟨"CLD", .implied, none, .flagClear, [], some (.flag .d), false, false, [.d], .sequential, none⟩ ∧
    signalsOf variant (.inc b) =
      ⟨"INC", .zeroPage, some b, .increment, [.mem], some .mem, true, true, [.z, .n], .sequential, none⟩ ∧
    signalsOf variant .inx =
      ⟨"INX", .implied, none, .increment, [.x], some .x, false, false, [.z, .n], .sequential, none⟩ ∧
    signalsOf variant .nop =
      ⟨"NOP", .implied, none, .idle, [], none, false, false, [], .sequential, none⟩ ∧
    signalsOf variant .sed =
      ⟨"SED", .implied, none, .flagSet, [], some (.flag .d), false, false, [.d], .sequential, none⟩) ∧
  ∀ (variant : AdcVariant) (op : Byte), Decoded.signals variant (.illegal op) =
    ⟨"Illegal", .implied, none, .idle, [], none, false, false, [], .idle, some (.illegalOpcode op)⟩

/-- R108, with R101 and R105: the length of an instruction is a function of its opcode byte alone, 2 for the opcodes of the
formats with an operand byte and 1 for every other value, BRK and every Illegal value included; an encoding has that
length, and a fetch advances PC by it. That 0xE6 (INC) is a two-byte opcode is DEDUCED from R101, R105 and R194 against
R108's list (log 24). -/
def Obligations.LengthIsDecidedByTheOpcode : Prop :=
  (∀ op : Byte, opcodeLength op = if op ∈ twoByteOpcodes then 2 else 1) ∧
    (∀ (i : Instr) (op : Byte) (rest : List Byte), encode i = op :: rest →
      i.length = opcodeLength op ∧ (encode i).length = opcodeLength op) ∧
    ∀ (s t : State) (d : Decoded), fetch s = .decoded d t →
      t.pc = s.pc + BitVec.ofNat 16 (opcodeLength (romByte s s.pc))

/-- R284: inspection reads A, X, Y, SP, PC, P, ROM, RAM and the run status, each as the state holds it, ROM and RAM byte by
byte as the access primitives read them (absent where those fault, D8, log 10); and nothing is hidden from it: two states of one core (its parameters the same)
that meet the invariant and look the same are the same. -/
def Obligations.InspectionShowsTheWholeState : Prop :=
  (∀ s : State,
    (inspect s).a = s.a ∧ (inspect s).x = s.x ∧ (inspect s).y = s.y ∧ (inspect s).sp = s.sp ∧
      (inspect s).pc = s.pc ∧ (inspect s).p = s.p ∧ (inspect s).packedP = s.p.pack ∧ (inspect s).halt = s.halt ∧
      (inspect s).rom.length = s.cfg.romSize ∧ (inspect s).ram.length = s.cfg.ramSize ∧
      ∀ (addr : Addr) (b : Byte),
        ((inspect s).rom[addr.toNat]? = some b ↔ s.progRead addr = .ok b) ∧
        ((inspect s).ram[addr.toNat]? = some b ↔ s.memRead addr = .ok b)) ∧
  ∀ s t : State, s.Inv → t.Inv → s.cfg = t.cfg → inspect s = inspect t → s = t
end

