-- ==== Sys2Proof/Laws/State.lean ====
section
/-! SUPPORT. The small lemmas of the state's updates: one per field per update, true by rfl, so that no later proof
unfolds a record update; and the same for the status register's two writers. -/

namespace Sys2Proof.Machine

@[simp] theorem State.setA_a (s : State) (v : Byte) : (s.setA v).a = v := rfl
@[simp] theorem State.setA_x (s : State) (v : Byte) : (s.setA v).x = s.x := rfl
@[simp] theorem State.setA_y (s : State) (v : Byte) : (s.setA v).y = s.y := rfl
@[simp] theorem State.setA_sp (s : State) (v : Byte) : (s.setA v).sp = s.sp := rfl
@[simp] theorem State.setA_pc (s : State) (v : Byte) : (s.setA v).pc = s.pc := rfl
@[simp] theorem State.setA_p (s : State) (v : Byte) : (s.setA v).p = s.p := rfl
@[simp] theorem State.setA_rom (s : State) (v : Byte) : (s.setA v).rom = s.rom := rfl
@[simp] theorem State.setA_ram (s : State) (v : Byte) : (s.setA v).ram = s.ram := rfl
@[simp] theorem State.setA_halt (s : State) (v : Byte) : (s.setA v).halt = s.halt := rfl
@[simp] theorem State.setA_cfg (s : State) (v : Byte) : (s.setA v).cfg = s.cfg := rfl

@[simp] theorem State.setX_a (s : State) (v : Byte) : (s.setX v).a = s.a := rfl
@[simp] theorem State.setX_x (s : State) (v : Byte) : (s.setX v).x = v := rfl
@[simp] theorem State.setX_y (s : State) (v : Byte) : (s.setX v).y = s.y := rfl
@[simp] theorem State.setX_sp (s : State) (v : Byte) : (s.setX v).sp = s.sp := rfl
@[simp] theorem State.setX_pc (s : State) (v : Byte) : (s.setX v).pc = s.pc := rfl
@[simp] theorem State.setX_p (s : State) (v : Byte) : (s.setX v).p = s.p := rfl
@[simp] theorem State.setX_rom (s : State) (v : Byte) : (s.setX v).rom = s.rom := rfl
@[simp] theorem State.setX_ram (s : State) (v : Byte) : (s.setX v).ram = s.ram := rfl
@[simp] theorem State.setX_halt (s : State) (v : Byte) : (s.setX v).halt = s.halt := rfl
@[simp] theorem State.setX_cfg (s : State) (v : Byte) : (s.setX v).cfg = s.cfg := rfl

@[simp] theorem State.setY_a (s : State) (v : Byte) : (s.setY v).a = s.a := rfl
@[simp] theorem State.setY_x (s : State) (v : Byte) : (s.setY v).x = s.x := rfl
@[simp] theorem State.setY_y (s : State) (v : Byte) : (s.setY v).y = v := rfl
@[simp] theorem State.setY_sp (s : State) (v : Byte) : (s.setY v).sp = s.sp := rfl
@[simp] theorem State.setY_pc (s : State) (v : Byte) : (s.setY v).pc = s.pc := rfl
@[simp] theorem State.setY_p (s : State) (v : Byte) : (s.setY v).p = s.p := rfl
@[simp] theorem State.setY_rom (s : State) (v : Byte) : (s.setY v).rom = s.rom := rfl
@[simp] theorem State.setY_ram (s : State) (v : Byte) : (s.setY v).ram = s.ram := rfl
@[simp] theorem State.setY_halt (s : State) (v : Byte) : (s.setY v).halt = s.halt := rfl
@[simp] theorem State.setY_cfg (s : State) (v : Byte) : (s.setY v).cfg = s.cfg := rfl

@[simp] theorem State.setPc_a (s : State) (t : Addr) : (s.setPc t).a = s.a := rfl
@[simp] theorem State.setPc_x (s : State) (t : Addr) : (s.setPc t).x = s.x := rfl
@[simp] theorem State.setPc_y (s : State) (t : Addr) : (s.setPc t).y = s.y := rfl
@[simp] theorem State.setPc_sp (s : State) (t : Addr) : (s.setPc t).sp = s.sp := rfl
@[simp] theorem State.setPc_pc (s : State) (t : Addr) : (s.setPc t).pc = t := rfl
@[simp] theorem State.setPc_p (s : State) (t : Addr) : (s.setPc t).p = s.p := rfl
@[simp] theorem State.setPc_rom (s : State) (t : Addr) : (s.setPc t).rom = s.rom := rfl
@[simp] theorem State.setPc_ram (s : State) (t : Addr) : (s.setPc t).ram = s.ram := rfl
@[simp] theorem State.setPc_halt (s : State) (t : Addr) : (s.setPc t).halt = s.halt := rfl
@[simp] theorem State.setPc_cfg (s : State) (t : Addr) : (s.setPc t).cfg = s.cfg := rfl

@[simp] theorem State.advancePc_a (s : State) : (s.advancePc).a = s.a := rfl
@[simp] theorem State.advancePc_x (s : State) : (s.advancePc).x = s.x := rfl
@[simp] theorem State.advancePc_y (s : State) : (s.advancePc).y = s.y := rfl
@[simp] theorem State.advancePc_sp (s : State) : (s.advancePc).sp = s.sp := rfl
@[simp] theorem State.advancePc_pc (s : State) : (s.advancePc).pc = s.pc + 1#16 := rfl
@[simp] theorem State.advancePc_p (s : State) : (s.advancePc).p = s.p := rfl
@[simp] theorem State.advancePc_rom (s : State) : (s.advancePc).rom = s.rom := rfl
@[simp] theorem State.advancePc_ram (s : State) : (s.advancePc).ram = s.ram := rfl
@[simp] theorem State.advancePc_halt (s : State) : (s.advancePc).halt = s.halt := rfl
@[simp] theorem State.advancePc_cfg (s : State) : (s.advancePc).cfg = s.cfg := rfl

@[simp] theorem State.setFlag_a (s : State) (f : Flag) (b : Bool) : (s.setFlag f b).a = s.a := rfl
@[simp] theorem State.setFlag_x (s : State) (f : Flag) (b : Bool) : (s.setFlag f b).x = s.x := rfl
@[simp] theorem State.setFlag_y (s : State) (f : Flag) (b : Bool) : (s.setFlag f b).y = s.y := rfl
@[simp] theorem State.setFlag_sp (s : State) (f : Flag) (b : Bool) : (s.setFlag f b).sp = s.sp := rfl
@[simp] theorem State.setFlag_pc (s : State) (f : Flag) (b : Bool) : (s.setFlag f b).pc = s.pc := rfl
@[simp] theorem State.setFlag_p (s : State) (f : Flag) (b : Bool) : (s.setFlag f b).p = s.p.set f b := rfl
@[simp] theorem State.setFlag_rom (s : State) (f : Flag) (b : Bool) : (s.setFlag f b).rom = s.rom := rfl
@[simp] theorem State.setFlag_ram (s : State) (f : Flag) (b : Bool) : (s.setFlag f b).ram = s.ram := rfl
@[simp] theorem State.setFlag_halt (s : State) (f : Flag) (b : Bool) : (s.setFlag f b).halt = s.halt := rfl
@[simp] theorem State.setFlag_cfg (s : State) (f : Flag) (b : Bool) : (s.setFlag f b).cfg = s.cfg := rfl

@[simp] theorem State.setZN_a (s : State) (v : Byte) : (s.setZN v).a = s.a := rfl
@[simp] theorem State.setZN_x (s : State) (v : Byte) : (s.setZN v).x = s.x := rfl
@[simp] theorem State.setZN_y (s : State) (v : Byte) : (s.setZN v).y = s.y := rfl
@[simp] theorem State.setZN_sp (s : State) (v : Byte) : (s.setZN v).sp = s.sp := rfl
@[simp] theorem State.setZN_pc (s : State) (v : Byte) : (s.setZN v).pc = s.pc := rfl
@[simp] theorem State.setZN_p (s : State) (v : Byte) : (s.setZN v).p = s.p.setZN v := rfl
@[simp] theorem State.setZN_rom (s : State) (v : Byte) : (s.setZN v).rom = s.rom := rfl
@[simp] theorem State.setZN_ram (s : State) (v : Byte) : (s.setZN v).ram = s.ram := rfl
@[simp] theorem State.setZN_halt (s : State) (v : Byte) : (s.setZN v).halt = s.halt := rfl
@[simp] theorem State.setZN_cfg (s : State) (v : Byte) : (s.setZN v).cfg = s.cfg := rfl

@[simp] theorem State.raise_a (s : State) (r : Fault) : (s.raise r).a = s.a := rfl
@[simp] theorem State.raise_x (s : State) (r : Fault) : (s.raise r).x = s.x := rfl
@[simp] theorem State.raise_y (s : State) (r : Fault) : (s.raise r).y = s.y := rfl
@[simp] theorem State.raise_sp (s : State) (r : Fault) : (s.raise r).sp = s.sp := rfl
@[simp] theorem State.raise_pc (s : State) (r : Fault) : (s.raise r).pc = s.pc := rfl
@[simp] theorem State.raise_p (s : State) (r : Fault) : (s.raise r).p = s.p := rfl
@[simp] theorem State.raise_rom (s : State) (r : Fault) : (s.raise r).rom = s.rom := rfl
@[simp] theorem State.raise_ram (s : State) (r : Fault) : (s.raise r).ram = s.ram := rfl
@[simp] theorem State.raise_halt (s : State) (r : Fault) : (s.raise r).halt = .faulted r := rfl
@[simp] theorem State.raise_cfg (s : State) (r : Fault) : (s.raise r).cfg = s.cfg := rfl

end Sys2Proof.Machine

namespace Sys2Proof

/-- `set` writes the one flag it names (R48). -/
@[simp] theorem Status.get_set (p : Status) (f g : Flag) (b : Bool) :
    (p.set f b).get g = if g = f then b else p.get g := by
  cases f <;> cases g <;> rfl

@[simp] theorem Status.setZN_c (p : Status) (v : Byte) : (p.setZN v).c = p.c := rfl
@[simp] theorem Status.setZN_z (p : Status) (v : Byte) : (p.setZN v).z = decide (v = 0#8) := rfl
@[simp] theorem Status.setZN_i (p : Status) (v : Byte) : (p.setZN v).i = p.i := rfl
@[simp] theorem Status.setZN_d (p : Status) (v : Byte) : (p.setZN v).d = p.d := rfl
@[simp] theorem Status.setZN_b (p : Status) (v : Byte) : (p.setZN v).b = p.b := rfl
@[simp] theorem Status.setZN_u (p : Status) (v : Byte) : (p.setZN v).u = p.u := rfl
@[simp] theorem Status.setZN_v (p : Status) (v : Byte) : (p.setZN v).v = p.v := rfl
@[simp] theorem Status.setZN_n (p : Status) (v : Byte) : (p.setZN v).n = v.msb := rfl

@[simp] theorem Status.set_c_c (p : Status) (x : Bool) : (p.set .c x).c = x := rfl
@[simp] theorem Status.set_c_z (p : Status) (x : Bool) : (p.set .c x).z = p.z := rfl
@[simp] theorem Status.set_c_i (p : Status) (x : Bool) : (p.set .c x).i = p.i := rfl
@[simp] theorem Status.set_c_d (p : Status) (x : Bool) : (p.set .c x).d = p.d := rfl
@[simp] theorem Status.set_c_b (p : Status) (x : Bool) : (p.set .c x).b = p.b := rfl
@[simp] theorem Status.set_c_u (p : Status) (x : Bool) : (p.set .c x).u = p.u := rfl
@[simp] theorem Status.set_c_v (p : Status) (x : Bool) : (p.set .c x).v = p.v := rfl
@[simp] theorem Status.set_c_n (p : Status) (x : Bool) : (p.set .c x).n = p.n := rfl
@[simp] theorem Status.set_z_c (p : Status) (x : Bool) : (p.set .z x).c = p.c := rfl
@[simp] theorem Status.set_z_z (p : Status) (x : Bool) : (p.set .z x).z = x := rfl
@[simp] theorem Status.set_z_i (p : Status) (x : Bool) : (p.set .z x).i = p.i := rfl
@[simp] theorem Status.set_z_d (p : Status) (x : Bool) : (p.set .z x).d = p.d := rfl
@[simp] theorem Status.set_z_b (p : Status) (x : Bool) : (p.set .z x).b = p.b := rfl
@[simp] theorem Status.set_z_u (p : Status) (x : Bool) : (p.set .z x).u = p.u := rfl
@[simp] theorem Status.set_z_v (p : Status) (x : Bool) : (p.set .z x).v = p.v := rfl
@[simp] theorem Status.set_z_n (p : Status) (x : Bool) : (p.set .z x).n = p.n := rfl
@[simp] theorem Status.set_i_c (p : Status) (x : Bool) : (p.set .i x).c = p.c := rfl
@[simp] theorem Status.set_i_z (p : Status) (x : Bool) : (p.set .i x).z = p.z := rfl
@[simp] theorem Status.set_i_i (p : Status) (x : Bool) : (p.set .i x).i = x := rfl
@[simp] theorem Status.set_i_d (p : Status) (x : Bool) : (p.set .i x).d = p.d := rfl
@[simp] theorem Status.set_i_b (p : Status) (x : Bool) : (p.set .i x).b = p.b := rfl
@[simp] theorem Status.set_i_u (p : Status) (x : Bool) : (p.set .i x).u = p.u := rfl
@[simp] theorem Status.set_i_v (p : Status) (x : Bool) : (p.set .i x).v = p.v := rfl
@[simp] theorem Status.set_i_n (p : Status) (x : Bool) : (p.set .i x).n = p.n := rfl
@[simp] theorem Status.set_d_c (p : Status) (x : Bool) : (p.set .d x).c = p.c := rfl
@[simp] theorem Status.set_d_z (p : Status) (x : Bool) : (p.set .d x).z = p.z := rfl
@[simp] theorem Status.set_d_i (p : Status) (x : Bool) : (p.set .d x).i = p.i := rfl
@[simp] theorem Status.set_d_d (p : Status) (x : Bool) : (p.set .d x).d = x := rfl
@[simp] theorem Status.set_d_b (p : Status) (x : Bool) : (p.set .d x).b = p.b := rfl
@[simp] theorem Status.set_d_u (p : Status) (x : Bool) : (p.set .d x).u = p.u := rfl
@[simp] theorem Status.set_d_v (p : Status) (x : Bool) : (p.set .d x).v = p.v := rfl
@[simp] theorem Status.set_d_n (p : Status) (x : Bool) : (p.set .d x).n = p.n := rfl
@[simp] theorem Status.set_b_c (p : Status) (x : Bool) : (p.set .b x).c = p.c := rfl
@[simp] theorem Status.set_b_z (p : Status) (x : Bool) : (p.set .b x).z = p.z := rfl
@[simp] theorem Status.set_b_i (p : Status) (x : Bool) : (p.set .b x).i = p.i := rfl
@[simp] theorem Status.set_b_d (p : Status) (x : Bool) : (p.set .b x).d = p.d := rfl
@[simp] theorem Status.set_b_b (p : Status) (x : Bool) : (p.set .b x).b = x := rfl
@[simp] theorem Status.set_b_u (p : Status) (x : Bool) : (p.set .b x).u = p.u := rfl
@[simp] theorem Status.set_b_v (p : Status) (x : Bool) : (p.set .b x).v = p.v := rfl
@[simp] theorem Status.set_b_n (p : Status) (x : Bool) : (p.set .b x).n = p.n := rfl
@[simp] theorem Status.set_u_c (p : Status) (x : Bool) : (p.set .u x).c = p.c := rfl
@[simp] theorem Status.set_u_z (p : Status) (x : Bool) : (p.set .u x).z = p.z := rfl
@[simp] theorem Status.set_u_i (p : Status) (x : Bool) : (p.set .u x).i = p.i := rfl
@[simp] theorem Status.set_u_d (p : Status) (x : Bool) : (p.set .u x).d = p.d := rfl
@[simp] theorem Status.set_u_b (p : Status) (x : Bool) : (p.set .u x).b = p.b := rfl
@[simp] theorem Status.set_u_u (p : Status) (x : Bool) : (p.set .u x).u = x := rfl
@[simp] theorem Status.set_u_v (p : Status) (x : Bool) : (p.set .u x).v = p.v := rfl
@[simp] theorem Status.set_u_n (p : Status) (x : Bool) : (p.set .u x).n = p.n := rfl
@[simp] theorem Status.set_v_c (p : Status) (x : Bool) : (p.set .v x).c = p.c := rfl
@[simp] theorem Status.set_v_z (p : Status) (x : Bool) : (p.set .v x).z = p.z := rfl
@[simp] theorem Status.set_v_i (p : Status) (x : Bool) : (p.set .v x).i = p.i := rfl
@[simp] theorem Status.set_v_d (p : Status) (x : Bool) : (p.set .v x).d = p.d := rfl
@[simp] theorem Status.set_v_b (p : Status) (x : Bool) : (p.set .v x).b = p.b := rfl
@[simp] theorem Status.set_v_u (p : Status) (x : Bool) : (p.set .v x).u = p.u := rfl
@[simp] theorem Status.set_v_v (p : Status) (x : Bool) : (p.set .v x).v = x := rfl
@[simp] theorem Status.set_v_n (p : Status) (x : Bool) : (p.set .v x).n = p.n := rfl
@[simp] theorem Status.set_n_c (p : Status) (x : Bool) : (p.set .n x).c = p.c := rfl
@[simp] theorem Status.set_n_z (p : Status) (x : Bool) : (p.set .n x).z = p.z := rfl
@[simp] theorem Status.set_n_i (p : Status) (x : Bool) : (p.set .n x).i = p.i := rfl
@[simp] theorem Status.set_n_d (p : Status) (x : Bool) : (p.set .n x).d = p.d := rfl
@[simp] theorem Status.set_n_b (p : Status) (x : Bool) : (p.set .n x).b = p.b := rfl
@[simp] theorem Status.set_n_u (p : Status) (x : Bool) : (p.set .n x).u = p.u := rfl
@[simp] theorem Status.set_n_v (p : Status) (x : Bool) : (p.set .n x).v = p.v := rfl
@[simp] theorem Status.set_n_n (p : Status) (x : Bool) : (p.set .n x).n = x := rfl

/-- `set_zn` writes Z and N and no other flag (R49). -/
@[simp] theorem Status.get_setZN (p : Status) (v : Byte) (f : Flag) :
    (p.setZN v).get f = if f = .n then v.msb else if f = .z then decide (v = 0#8) else p.get f := by
  cases f <;> rfl

/-- Two status registers with the same eight flags are equal. -/
theorem Status.ext_get {p q : Status} (h : ∀ f, p.get f = q.get f) : p = q := by
  cases p
  cases q
  simpa [Status.get] using And.intro (h .c) ⟨h .z, h .i, h .d, h .b, h .u, h .v, h .n⟩

end Sys2Proof
end

