-- ==== Sys2Proof/Laws/Memory.lean ====
section
/-! SUPPORT. The laws of one Memory instance: reading after writing, the canonical form kept by every operation, equal
readings mean equal memories, and the contents construction gives (spec/20_memory.md R76, R77, R80). -/

namespace Sys2Proof.Machine

theorem readCells_consCell (a b : Nat) (v : Byte) (cells : List Host.Cell)
    (fresh : readCells cells a = unlistedByte) :
    readCells (consCell a v cells) b = if b = a then v else readCells cells b := by
  unfold consCell
  by_cases hv : v = unlistedByte
  · by_cases hb : b = a
    · simp [hv, hb, fresh]
    · simp [hv, hb]
  · by_cases hb : b = a
    · simp [hv, hb, readCells]
    · simp [hv, hb, readCells, Ne.symm hb]

/-- Below the first address of a canonical list nothing is listed. -/
theorem readCells_below {lo : Nat} {cells : List Host.Cell} (wf : cellsWf lo cells = true) {a : Nat} (h : a < lo) :
    readCells cells a = unlistedByte := by
  induction cells generalizing lo with
  | nil => rfl
  | cons cell rest ih =>
    obtain ⟨b, w⟩ := cell
    simp only [cellsWf, Bool.and_eq_true, decide_eq_true_eq] at wf
    have hb : b ≠ a := by omega
    simpa [readCells, hb] using ih wf.2 (by omega)

theorem cellsWf_mono {lo lo' : Nat} {cells : List Host.Cell} (h : lo' ≤ lo) (wf : cellsWf lo cells = true) :
    cellsWf lo' cells = true := by
  cases cells with
  | nil => rfl
  | cons cell rest =>
    simp only [cellsWf, Bool.and_eq_true, decide_eq_true_eq] at wf ⊢
    exact ⟨⟨by omega, wf.1.2⟩, wf.2⟩

theorem cellsWf_consCell {lo a : Nat} {v : Byte} {cells : List Host.Cell} (h : lo ≤ a)
    (wf : cellsWf (a + 1) cells = true) : cellsWf lo (consCell a v cells) = true := by
  unfold consCell
  split
  · exact cellsWf_mono (by omega) wf
  · simp [cellsWf, *]

/-- A write keeps the canonical form. -/
theorem cellsWf_writeCells {lo a : Nat} {v : Byte} {cells : List Host.Cell} (h : lo ≤ a)
    (wf : cellsWf lo cells = true) : cellsWf lo (writeCells cells a v) = true := by
  induction cells generalizing lo with
  | nil => exact cellsWf_consCell h rfl
  | cons cell rest ih =>
    obtain ⟨b, w⟩ := cell
    simp only [cellsWf, Bool.and_eq_true, decide_eq_true_eq] at wf
    unfold writeCells
    split
    · simp only [cellsWf, Bool.and_eq_true, decide_eq_true_eq]
      exact ⟨wf.1, ih (by omega) wf.2⟩
    · split
      · subst_vars
        exact cellsWf_consCell h wf.2
      · refine cellsWf_consCell h ?_
        simp only [cellsWf, Bool.and_eq_true, decide_eq_true_eq]
        exact ⟨⟨by omega, wf.1.2⟩, wf.2⟩

/-- Reading after a write: the byte written at its address, the old byte everywhere else (R76, R77). -/
theorem readCells_writeCells {lo : Nat} {cells : List Host.Cell} (wf : cellsWf lo cells = true) (a b : Nat) (v : Byte) :
    readCells (writeCells cells a v) b = if b = a then v else readCells cells b := by
  induction cells generalizing lo with
  | nil => exact readCells_consCell a b v [] rfl
  | cons cell rest ih =>
    obtain ⟨k, w⟩ := cell
    simp only [cellsWf, Bool.and_eq_true, decide_eq_true_eq] at wf
    unfold writeCells
    split
    case isTrue h =>
      by_cases hk : k = b
      · have : b ≠ a := by omega
        simp [readCells, hk, this]
      · simp [readCells, hk, ih wf.2]
    case isFalse h =>
      split
      case isTrue hk =>
        subst hk
        rw [readCells_consCell _ _ _ _ (readCells_below wf.2 (by omega))]
        by_cases hb : b = k
        · simp [hb]
        · simp [hb, readCells, Ne.symm hb]
      case isFalse hk =>
        rw [readCells_consCell]
        simpa [readCells, hk] using readCells_below wf.2 (by omega)

/-- Two canonical lists that read alike at every address are one list. -/
theorem cells_eq_of_read {lo : Nat} {cells cells' : List Host.Cell} (wf : cellsWf lo cells = true)
    (wf' : cellsWf lo cells' = true) (h : ∀ a, readCells cells a = readCells cells' a) : cells = cells' := by
  induction cells generalizing lo cells' with
  | nil =>
    cases cells' with
    | nil => rfl
    | cons cell rest =>
      obtain ⟨b, w⟩ := cell
      simp only [cellsWf, Bool.and_eq_true, decide_eq_true_eq] at wf'
      have := h b
      simp [readCells] at this
      exact absurd this.symm wf'.1.2
  | cons cell rest ih =>
    obtain ⟨b, w⟩ := cell
    simp only [cellsWf, Bool.and_eq_true, decide_eq_true_eq] at wf
    cases cells' with
    | nil =>
      have := h b
      simp [readCells] at this
      exact absurd this wf.1.2
    | cons cell' rest' =>
      obtain ⟨b', w'⟩ := cell'
      simp only [cellsWf, Bool.and_eq_true, decide_eq_true_eq] at wf'
      have hbb : b = b' := by
        by_contra hne
        rcases Nat.lt_or_gt_of_ne hne with hlt | hlt
        · have := h b
          simp only [readCells, if_true, Ne.symm hne, if_false] at this
          rw [readCells_below wf'.2 (by omega)] at this
          exact wf.1.2 this
        · have := h b'
          simp only [readCells, if_true, hne, if_false] at this
          rw [readCells_below wf.2 (by omega)] at this
          exact wf'.1.2 this.symm
      subst hbb
      have hw : w = w' := by simpa [readCells] using h b
      subst hw
      have hrest : rest = rest' := by
        refine ih wf.2 wf'.2 fun a => ?_
        by_cases ha : b = a
        · subst ha
          rw [readCells_below wf.2 (by omega), readCells_below wf'.2 (by omega)]
        · simpa [readCells, ha] using h a
      rw [hrest]

theorem within_consCell {size a : Nat} {v : Byte} {cells : List Host.Cell} (ha : a < size)
    (h : cells.all (fun cell => decide (cell.1 < size)) = true) :
    (consCell a v cells).all (fun cell => decide (cell.1 < size)) = true := by
  unfold consCell
  split
  · exact h
  · simp only [List.all_cons, h, decide_eq_true ha, Bool.and_self]

/-- The bytes of a sequence from address `lo` on: the sequence, then the unlisted byte (R80). -/
theorem cellsOf_wf (lo : Nat) (bytes : List Byte) : cellsWf lo (cellsOf lo bytes) = true := by
  induction bytes generalizing lo with
  | nil => rfl
  | cons b rest ih => exact cellsWf_consCell (Nat.le_refl lo) (ih (lo + 1))

theorem readCells_cellsOf (lo k : Nat) (bytes : List Byte) :
    readCells (cellsOf lo bytes) (lo + k) = bytes.getD k unlistedByte := by
  induction bytes generalizing lo k with
  | nil => simp [cellsOf, readCells]
  | cons b rest ih =>
    have fresh := readCells_below (cellsOf_wf (lo + 1) rest) (Nat.lt_succ_self lo)
    rw [cellsOf, readCells_consCell _ _ _ _ fresh]
    cases k with
    | zero => simp
    | succ k =>
      have := ih (lo + 1) k
      rw [show lo + 1 + k = lo + (k + 1) by omega] at this
      simpa using this

theorem cellsOf_within (lo size : Nat) (bytes : List Byte) (h : lo + bytes.length ≤ size) :
    (cellsOf lo bytes).all (fun cell => decide (cell.1 < size)) = true := by
  induction bytes generalizing lo with
  | nil => rfl
  | cons b rest ih =>
    simp only [List.length_cons] at h
    exact within_consCell (by omega) (ih (lo + 1) (by omega))

/-- Reading after a write to a canonical memory (R76, R77). -/
theorem Memory.read_write {m : Memory} (wf : m.wf = true) (a b : Nat) (v : Byte) :
    (m.write a v).read b = if b = a then v else m.read b :=
  readCells_writeCells wf a b v

/-- A write leaves every other address alone, in any memory (R76). -/
theorem Memory.read_write_of_ne (m : Memory) {a b : Nat} (h : b ≠ a) (v : Byte) :
    (m.write a v).read b = m.read b := by
  obtain ⟨cells⟩ := m
  simp only [Memory.read, Memory.write]
  have skip : ∀ rest, readCells (consCell a v rest) b = readCells rest b := by
    intro rest
    unfold consCell
    split <;> simp [readCells, Ne.symm h]
  induction cells with
  | nil => exact skip []
  | cons cell rest ih =>
    obtain ⟨k, w⟩ := cell
    unfold writeCells
    split
    · simp [readCells, ih]
    · split
      · subst_vars
        simp [skip, readCells, Ne.symm h]
      · exact skip _

/-- A write keeps the canonical form. -/
theorem Memory.write_wf {m : Memory} (wf : m.wf = true) (a : Nat) (v : Byte) : (m.write a v).wf = true :=
  cellsWf_writeCells (Nat.zero_le a) wf

/-- A write in range lists no address out of range. -/
theorem Memory.write_within {m : Memory} {size a : Nat} {v : Byte} (h : m.within size = true) (ha : a < size) :
    (m.write a v).within size = true := by
  obtain ⟨cells⟩ := m
  simp only [Memory.within, Memory.write] at h ⊢
  induction cells with
  | nil => exact within_consCell ha rfl
  | cons cell rest ih =>
    obtain ⟨b, w⟩ := cell
    have hrest : rest.all (fun cell => decide (cell.1 < size)) = true := by
      simp only [List.all_cons, Bool.and_eq_true] at h
      exact h.2
    unfold writeCells
    split
    · simp only [List.all_cons, Bool.and_eq_true] at h ⊢
      exact ⟨h.1, ih h.2⟩
    · split
      · exact within_consCell ha hrest
      · exact within_consCell ha h

/-- Equal readings, equal memories: the canonical form is one per contents. -/
theorem Memory.eq_of_read {m m' : Memory} (wf : m.wf = true) (wf' : m'.wf = true)
    (h : ∀ a, m.read a = m'.read a) : m = m' := by
  obtain ⟨cells⟩ := m
  obtain ⟨cells'⟩ := m'
  exact congrArg Memory.mk (cells_eq_of_read wf wf' h)

theorem Memory.ofBytes_wf (bytes : List Byte) : (Memory.ofBytes bytes).wf = true := cellsOf_wf 0 bytes

theorem Memory.ofBytes_within {bytes : List Byte} {size : Nat} (h : bytes.length ≤ size) :
    (Memory.ofBytes bytes).within size = true := cellsOf_within 0 size bytes (by omega)

/-- A constructed memory holds the sequence, then zeros (R80). -/
theorem Memory.ofBytes_read (bytes : List Byte) (a : Nat) :
    (Memory.ofBytes bytes).read a = bytes.getD a unlistedByte := by
  have h := readCells_cellsOf 0 a bytes
  rwa [Nat.zero_add] at h

/-- The contents are as many bytes as the capacity, each the byte read at its index. -/
@[simp] theorem Memory.bytes_length (m : Memory) (size : Nat) : (m.bytes size).length = size := by
  simp [Memory.bytes]

theorem Memory.bytes_getElem? (m : Memory) (size a : Nat) :
    (m.bytes size)[a]? = if a < size then some (m.read a) else none := by
  unfold Memory.bytes
  by_cases h : a < size <;> simp [h]

/-- An address that no listed address reaches reads the unlisted byte. -/
theorem readCells_beyond {size a : Nat} (h : size ≤ a) :
    ∀ {cells : List Host.Cell}, (cells.all fun cell => decide (cell.1 < size)) = true →
      readCells cells a = unlistedByte
  | [], _ => rfl
  | (b, w) :: rest, hall => by
    simp only [List.all_cons, Bool.and_eq_true, decide_eq_true_eq] at hall
    have hb : b ≠ a := by omega
    simp [readCells, hb, readCells_beyond h hall.2]

theorem Memory.read_beyond {m : Memory} {size a : Nat} (within : m.within size = true) (h : size ≤ a) :
    m.read a = unlistedByte := readCells_beyond h within

/-- Equal contents, equal memories. -/
theorem Memory.eq_of_bytes {m m' : Memory} {size : Nat} (wf : m.wf = true) (wf' : m'.wf = true)
    (within : m.within size = true) (within' : m'.within size = true) (h : m.bytes size = m'.bytes size) : m = m' := by
  refine Memory.eq_of_read wf wf' fun a => ?_
  by_cases ha : a < size
  · have hb := congrArg (fun l => l[a]?) h
    rw [Memory.bytes_getElem?, Memory.bytes_getElem?, if_pos ha, if_pos ha] at hb
    exact Option.some.inj hb
  · rw [Memory.read_beyond within (Nat.not_lt.mp ha), Memory.read_beyond within' (Nat.not_lt.mp ha)]

/-- The memories of the reset state are canonical. -/
theorem reset_memories_wf : State.reset.rom.wf = true ∧ State.reset.ram.wf = true := ⟨rfl, rfl⟩

end Sys2Proof.Machine
end

