-- ==== Sys2Proof/Laws/Ops.lean ====
section
/-! SUPPORT. One lemma per shared operation, saying once everything it can do: the three access primitives, the
zero-page operand, the branch target, raising a fault and concluding an instruction. Later proofs cite these. -/

namespace Sys2Proof.Machine

/-- A zero-page operand names its own byte value as an address (R73, R103). -/
@[simp] theorem dataAddr_toNat (zp : Byte) : (dataAddr zp).toNat = zp.toNat := by
  have h := zp.isLt
  simp only [dataAddr, BitVec.toNat_ofNat]
  omega

/-- Two zero-page operands that name one address are one operand. -/
theorem dataAddr_injective {zp zp' : Byte} (h : dataAddr zp = dataAddr zp') : zp = zp' := by
  have h' := congrArg BitVec.toNat h
  rw [dataAddr_toNat, dataAddr_toNat] at h'
  exact BitVec.eq_of_toNat_eq h'

/-- `sext16` reads a byte as two's complement (R13). -/
theorem sext16_eq_toInt (v : Byte) : sext16 v = v.toInt := by
  rw [sext16, BitVec.toInt_eq_msb_cond]
  cases v.msb <;> simp

/-- The branch target as a sum reduced modulo 65536, as an ALU computes it (R36, R104). -/
theorem branchTarget_eq_ofNat (pc : Addr) (rel : Byte) :
    branchTarget pc rel = BitVec.ofNat 16 (((pc.toNat : Int) + sext16 rel) % 65536).toNat := by
  apply BitVec.eq_of_toNat_eq
  simp only [branchTarget, BitVec.toNat_ofInt, BitVec.toNat_ofNat]
  omega

/-- `narrow` keeps the exact result modulo 256 (R36). -/
@[simp] theorem narrow_toNat (exact : Nat) : (narrow exact).toNat = exact % 256 := BitVec.toNat_ofNat ..

/-- ProgRead (R74). -/
theorem progRead_ok {s : State} {addr : Addr} {b : Byte} :
    s.progRead addr = .ok b ↔ addr.toNat < s.cfg.romSize ∧ b = s.rom.read addr.toNat := by
  unfold State.progRead
  split <;> simp_all [eq_comm]

theorem progRead_error {s : State} {addr : Addr} {r : Fault} :
    s.progRead addr = .error r ↔ s.cfg.romSize ≤ addr.toNat ∧ r = .memoryOutOfRange .program addr := by
  unfold State.progRead
  split <;> simp_all [eq_comm]

/-- MemRead (R75). -/
theorem memRead_ok {s : State} {addr : Addr} {b : Byte} :
    s.memRead addr = .ok b ↔ addr.toNat < s.cfg.ramSize ∧ b = s.ram.read addr.toNat := by
  unfold State.memRead
  split <;> simp_all [eq_comm]

theorem memRead_error {s : State} {addr : Addr} {r : Fault} :
    s.memRead addr = .error r ↔ s.cfg.ramSize ≤ addr.toNat ∧ r = .memoryOutOfRange .data addr := by
  unfold State.memRead
  split <;> simp_all [eq_comm]

/-- MemWrite (R76). -/
theorem memWrite_ok {s t : State} {addr : Addr} {v : Byte} :
    s.memWrite addr v = .ok t ↔
      addr.toNat < s.cfg.ramSize ∧ t = { s with ram := s.ram.write addr.toNat v } := by
  unfold State.memWrite
  split <;> simp_all [eq_comm]

theorem memWrite_error {s : State} {addr : Addr} {v : Byte} {r : Fault} :
    s.memWrite addr v = .error r ↔ s.cfg.ramSize ≤ addr.toNat ∧ r = .memoryOutOfRange .data addr := by
  unfold State.memWrite
  split <;> simp_all [eq_comm]

/-- `M[ea]` in range. -/
theorem readZp_of_lt {s : State} {zp : Byte} (h : zp.toNat < s.cfg.ramSize) :
    s.readZp zp = .ok (s.ram.read zp.toNat) := by
  simp [State.readZp, State.memRead, h]

/-- `M[ea]` out of range. -/
theorem readZp_of_le {s : State} {zp : Byte} (h : s.cfg.ramSize ≤ zp.toNat) :
    s.readZp zp = .error (.memoryOutOfRange .data (dataAddr zp)) := by
  simp [State.readZp, State.memRead, Nat.not_lt.mpr h]

/-- `M[ea] <- v` in range. -/
theorem writeZp_of_lt {s : State} {zp v : Byte} (h : zp.toNat < s.cfg.ramSize) :
    s.writeZp zp v = .ok { s with ram := s.ram.write zp.toNat v } := by
  simp [State.writeZp, State.memWrite, h]

/-- `M[ea] <- v` out of range. -/
theorem writeZp_of_le {s : State} {zp v : Byte} (h : s.cfg.ramSize ≤ zp.toNat) :
    s.writeZp zp v = .error (.memoryOutOfRange .data (dataAddr zp)) := by
  simp [State.writeZp, State.memWrite, Nat.not_lt.mpr h]

@[simp] theorem conclude_ok (s t : State) : s.conclude (.ok t) = .next t := rfl

@[simp] theorem conclude_pure (s t : State) : s.conclude (pure t) = .next t := rfl

@[simp] theorem conclude_error (s : State) (r : Fault) : s.conclude (.error r) = .next (s.raise r) := rfl

/-- Concluding answers a next state: the instruction's own, or the fault recorded in the state it began in. -/
theorem conclude_eq_next {s t : State} {outcome : Except Fault State} :
    s.conclude outcome = .next t ↔ outcome = .ok t ∨ ∃ r, outcome = .error r ∧ t = s.raise r := by
  cases outcome <;> simp [eq_comm]

/-- A bind in an instruction's pseudocode runs on only where the access succeeded. -/
theorem except_bind_ok {α β : Type} {e : Except Fault α} {k : α → Except Fault β} {b : β} :
    (e >>= k) = .ok b ↔ ∃ a, e = .ok a ∧ k a = .ok b := by
  cases e <;> simp [Bind.bind, Except.bind]

theorem except_bind_error {α β : Type} {e : Except Fault α} {k : α → Except Fault β} {r : Fault} :
    (e >>= k) = .error r ↔ e = .error r ∨ ∃ a, e = .ok a ∧ k a = .error r := by
  cases e <;> simp [Bind.bind, Except.bind]

end Sys2Proof.Machine
end

