-- ==== Sys2Proof/Laws/Decode.lean ====
section
/-! SUPPORT. What the opcode table holds, said once: every row's instruction is encoded with the row's opcode. Proofs
about decoding cite these two lemmas and never split the table again. -/

namespace Sys2Proof

/-- A row without an operand byte: its instruction is the opcode byte alone. -/
theorem opcodeEntry_noOperand {op : Byte} {i : Instr} (h : opcodeEntry op = some (.noOperand i)) :
    encode i = [op] ∧ i.mode = .implied := by
  unfold opcodeEntry at h
  split at h <;> simp at h
  all_goals
    subst h
    rename_i hop
    exact ⟨by rw [encode]; exact congrArg (· :: []) (BitVec.eq_of_toNat_eq hop.symm), rfl⟩

/-- A row with an operand byte: its instruction is the opcode byte and the operand. -/
theorem opcodeEntry_withOperand {op b : Byte} {build : Byte → Instr}
    (h : opcodeEntry op = some (.withOperand build)) :
    encode (build b) = [op, b] ∧ (build b).mode ≠ .implied := by
  unfold opcodeEntry at h
  split at h <;> simp at h
  all_goals
    subst h
    rename_i hop
    exact ⟨by rw [encode]; exact congrArg (· :: [b]) (BitVec.eq_of_toNat_eq hop.symm), by simp [Instr.mode]⟩

/-- Decoding a byte with no row. -/
theorem decode_of_none {op : Byte} (rest : List Byte) (h : opcodeEntry op = none) :
    decode (op :: rest) = .error (.illegalOpcode op) := by
  simp [decode, h]

/-- Decoding a byte whose row has no operand. -/
theorem decode_of_noOperand {op : Byte} {i : Instr} (rest : List Byte)
    (h : opcodeEntry op = some (.noOperand i)) : decode (op :: rest) = .ok (i, rest) := by
  simp [decode, h]

/-- Decoding a byte whose row has an operand, which is there. -/
theorem decode_of_withOperand {op : Byte} {build : Byte → Instr} (b : Byte) (rest : List Byte)
    (h : opcodeEntry op = some (.withOperand build)) : decode (op :: b :: rest) = .ok (build b, rest) := by
  simp [decode, h]

/-- Decoding a byte whose row has an operand, which is missing. -/
theorem decode_of_missing {op : Byte} {build : Byte → Instr}
    (h : opcodeEntry op = some (.withOperand build)) : decode [op] = .error (.missingOperand op) := by
  simp [decode, h]

/-- The instruction of a row without an operand is one byte long, with an operand two (R101, R108). -/
theorem length_noOperand {op : Byte} {i : Instr} (h : opcodeEntry op = some (.noOperand i)) : i.length = 1 := by
  simp [Instr.length, (opcodeEntry_noOperand h).2]

theorem length_withOperand {op b : Byte} {build : Byte → Instr}
    (h : opcodeEntry op = some (.withOperand build)) : (build b).length = 2 := by
  have hm := (opcodeEntry_withOperand (b := b) h).2
  unfold Instr.length
  cases hk : (build b).mode <;> simp_all

/-- Every instruction is well-formed: the operand widths are in the types (R101 to R104). -/
theorem wellFormed_all (i : Instr) : i.wellFormed = true := by cases i <;> rfl

/-- The length of each kind of row (R108). -/
theorem opcodeLength_of_illegal {op : Byte} (h : opcodeEntry op = none) : opcodeLength op = 1 := by
  simp [opcodeLength, h]

theorem opcodeLength_of_noOperand {op : Byte} {i : Instr} (h : opcodeEntry op = some (.noOperand i)) :
    opcodeLength op = 1 := by
  simp [opcodeLength, h]

theorem opcodeLength_of_withOperand {op : Byte} {build : Byte → Instr}
    (h : opcodeEntry op = some (.withOperand build)) : opcodeLength op = 2 := by
  simp [opcodeLength, h]

end Sys2Proof
end

