-- ==== Sys2Proof/Laws/PerInstr.lean ====
section
/-! SUPPORT. Statements made per instruction, one lemma per constructor. Family RoundTrip: the bytes the encoder writes
for an instruction decode to it and no byte of what follows is consumed (spec/30_encoding.md R100, R101, R105, R111),
and there are as many of them as its format says. -/

namespace Sys2Proof.Laws.RoundTrip

/-- Decoding an instruction's bytes, whatever follows them, gives the instruction and what follows. -/
def Statement (i : Instr) : Prop :=
  (∀ rest, decode (encode i ++ rest) = .ok (i, rest)) ∧ (encode i).length = i.length ∧ i.wellFormed = true

theorem brk : Statement .brk := ⟨fun _ => rfl, rfl, rfl⟩

theorem asl (b : Byte) : Statement (.asl b) := ⟨fun _ => rfl, rfl, rfl⟩

theorem clc : Statement .clc := ⟨fun _ => rfl, rfl, rfl⟩

theorem and (b : Byte) : Statement (.and b) := ⟨fun _ => rfl, rfl, rfl⟩

theorem sec : Statement .sec := ⟨fun _ => rfl, rfl, rfl⟩

theorem cli : Statement .cli := ⟨fun _ => rfl, rfl, rfl⟩

theorem adc (b : Byte) : Statement (.adc b) := ⟨fun _ => rfl, rfl, rfl⟩

theorem sei : Statement .sei := ⟨fun _ => rfl, rfl, rfl⟩

theorem sta (b : Byte) : Statement (.sta b) := ⟨fun _ => rfl, rfl, rfl⟩

theorem dey : Statement .dey := ⟨fun _ => rfl, rfl, rfl⟩

theorem txa : Statement .txa := ⟨fun _ => rfl, rfl, rfl⟩

theorem bcc (b : Byte) : Statement (.bcc b) := ⟨fun _ => rfl, rfl, rfl⟩

theorem tya : Statement .tya := ⟨fun _ => rfl, rfl, rfl⟩

theorem ldy (b : Byte) : Statement (.ldy b) := ⟨fun _ => rfl, rfl, rfl⟩

theorem ldx (b : Byte) : Statement (.ldx b) := ⟨fun _ => rfl, rfl, rfl⟩

theorem tay : Statement .tay := ⟨fun _ => rfl, rfl, rfl⟩

theorem lda (b : Byte) : Statement (.lda b) := ⟨fun _ => rfl, rfl, rfl⟩

theorem tax : Statement .tax := ⟨fun _ => rfl, rfl, rfl⟩

theorem clv : Statement .clv := ⟨fun _ => rfl, rfl, rfl⟩

theorem iny : Statement .iny := ⟨fun _ => rfl, rfl, rfl⟩

theorem dex : Statement .dex := ⟨fun _ => rfl, rfl, rfl⟩

theorem cld : Statement .cld := ⟨fun _ => rfl, rfl, rfl⟩

theorem inc (b : Byte) : Statement (.inc b) := ⟨fun _ => rfl, rfl, rfl⟩

theorem inx : Statement .inx := ⟨fun _ => rfl, rfl, rfl⟩

theorem nop : Statement .nop := ⟨fun _ => rfl, rfl, rfl⟩

theorem sed : Statement .sed := ⟨fun _ => rfl, rfl, rfl⟩

end Sys2Proof.Laws.RoundTrip
end

