-- ==== Sys2Proof/Laws/Step.lean ====
section
/-! SUPPORT. What fetch and step can do, said once: the cases of the fetch, and the cases of a step from a running
core. Invariants and whole-machine statements are case analyses over these. -/

namespace Sys2Proof.Machine

/-- Everything fetch can answer (R106, R110, R120, D25). -/
theorem fetch_cases (s : State) :
    (s.cfg.romSize ≤ s.pc.toNat ∧ fetch s = .raised (s.raise (.memoryOutOfRange .program s.pc))) ∨
    (s.pc.toNat < s.cfg.romSize ∧
      ((opcodeEntry (s.rom.read s.pc.toNat) = none ∧
          fetch s = .decoded (.illegal (s.rom.read s.pc.toNat)) s.advancePc) ∨
       (∃ i, opcodeEntry (s.rom.read s.pc.toNat) = some (.noOperand i) ∧
          fetch s = .decoded (.instr i) s.advancePc) ∨
       (∃ build, opcodeEntry (s.rom.read s.pc.toNat) = some (.withOperand build) ∧
          ((s.cfg.romSize ≤ (s.pc + 1#16).toNat ∧
              fetch s = .raised (s.advancePc.raise (.memoryOutOfRange .program (s.pc + 1#16)))) ∨
           ((s.pc + 1#16).toNat < s.cfg.romSize ∧
              fetch s = .decoded (.instr (build (s.rom.read (s.pc + 1#16).toNat))) s.advancePc.advancePc))))) := by
  unfold fetch
  by_cases h0 : s.pc.toNat < s.cfg.romSize
  · refine .inr ⟨h0, ?_⟩
    have hop : s.progRead s.pc = .ok (s.rom.read s.pc.toNat) := progRead_ok.mpr ⟨h0, rfl⟩
    simp only [hop, decodeAt]
    match hop : opcodeEntry (s.rom.read s.pc.toNat) with
    | none => exact .inl ⟨rfl, rfl⟩
    | some (.noOperand i) => exact .inr (.inl ⟨i, rfl, rfl⟩)
    | some (.withOperand build) =>
      refine .inr (.inr ⟨build, rfl, ?_⟩)
      by_cases h1 : (s.pc + 1#16).toNat < s.cfg.romSize
      · have hb : s.advancePc.progRead s.advancePc.pc = .ok (s.rom.read (s.pc + 1#16).toNat) :=
          progRead_ok.mpr ⟨h1, rfl⟩
        exact .inr ⟨h1, by simp only [hb]⟩
      · have hb : s.advancePc.progRead s.advancePc.pc = .error (.memoryOutOfRange .program (s.pc + 1#16)) :=
          progRead_error.mpr ⟨Nat.not_lt.mp h1, rfl⟩
        exact .inl ⟨Nat.not_lt.mp h1, by simp only [hb]⟩
  · have hop : s.progRead s.pc = .error (.memoryOutOfRange .program s.pc) :=
      progRead_error.mpr ⟨Nat.not_lt.mp h0, rfl⟩
    exact .inl ⟨Nat.not_lt.mp h0, by simp only [hop]⟩

/-- A function of the state carried through what fetch answers. -/
def Fetched.map (f : State → State) : Fetched → Fetched
  | .decoded d t => .decoded d (f t)
  | .raised t => .raised (f t)

/-- Fetch reads PC, ROM and the parameters and writes PC and the run status: a change of anything else passes through
it (R71, R110). -/
theorem fetch_map (f : State → State) (hpc : ∀ t, (f t).pc = t.pc) (hrom : ∀ t, (f t).rom = t.rom)
    (hcfg : ∀ t, (f t).cfg = t.cfg) (hset : ∀ t q, f (t.setPc q) = (f t).setPc q)
    (hraise : ∀ t r, f (t.raise r) = (f t).raise r) (s : State) : fetch (f s) = (fetch s).map f := by
  have hread : ∀ t a, (f t).progRead a = t.progRead a := fun t a => by simp [State.progRead, hrom, hcfg]
  have hadv : ∀ t, (f t).advancePc = f t.advancePc := fun t => by simp [State.advancePc, hpc, hset]
  unfold fetch
  rw [hpc, hread]
  cases s.progRead s.pc with
  | error r => simp [Fetched.map, hraise]
  | ok op =>
    simp only [decodeAt, hadv]
    cases opcodeEntry op with
    | none => rfl
    | some entry =>
      cases entry with
      | noOperand i => rfl
      | withOperand build =>
        simp only [hpc, hread]
        cases s.advancePc.progRead s.advancePc.pc with
        | error r => simp [Fetched.map, hraise]
        | ok b => rfl

/-- A faulted core's step (R122). -/
theorem step_faulted {s : State} {r : Fault} (h : s.halt = .faulted r) : step s = .fault r := by
  simp [step, h]

/-- A running core whose fetch faulted answers the state that records it (R122, R255). -/
theorem step_of_raised {s t : State} (h : s.halt = .running) (hf : fetch s = .raised t) : step s = .next t := by
  simp [step, h, hf]

/-- A running core that fetched an illegal opcode executes the Illegal variant (R106, R233). -/
theorem step_of_illegal {s t : State} {op : Byte} (h : s.halt = .running)
    (hf : fetch s = .decoded (.illegal op) t) : step s = execIllegal op t := by
  simp [step, h, hf]

/-- A running core that decoded an instruction executes it with PC past its bytes (R120, R123). -/
theorem step_of_instr {s t : State} {i : Instr} (h : s.halt = .running)
    (hf : fetch s = .decoded (.instr i) t) : step s = exec i t := by
  simp [step, h, hf]

/-- A tick follows a step that answers a next state (R120, R284). -/
theorem tick_of_next {s t : State} (h : step s = .next t) : tick s = t := by simp [tick, h]

/-- A tick changes nothing where there is no step (R122). -/
theorem tick_of_fault {s : State} {r : Fault} (h : step s = .fault r) : tick s = s := by simp [tick, h]

/-- A run of one tick more follows the step (R285). -/
theorem runTicks_succ_of_next {s t : State} (h : step s = .next t) (n : Nat) :
    runTicks (n + 1) s = runTicks n t := by simp [runTicks, tick_of_next h]

end Sys2Proof.Machine
end

