-- ==== Sys2Proof/Tests/Slice0.lean ====
section
/-! SUPPORT. Small tests. Expected results come from spec/95_test_vectors.md (V<n>, S<n>), from the encodings of
spec/30_encoding.md R105 and spec/opcode_table.json written out bit by bit, and from the rules named; none is the model's
own answer. The witness theorems show, for every statement with hypotheses, a state and operands that meet them. -/

open Sys2Proof Sys2Proof.Machine Sys2Proof.Stated

namespace Sys2Proof.Tests

/-! ## Well-formedness: each check refuses an ill-formed term -/

/-- ROM_SIZE in 1..65536, RAM_SIZE in 256..65536 (R9; V68). -/
theorem test_illegal_sizes_refused :
    ({ Config.spec with romSize := 0 } : Config).legal = false ∧
    ({ Config.spec with romSize := 65537 } : Config).legal = false ∧
    ({ Config.spec with ramSize := 255 } : Config).legal = false ∧
    ({ Config.spec with ramSize := 65537 } : Config).legal = false ∧
    ({ Config.spec with romSize := 1, ramSize := 256 } : Config).legal = true := by decide

/-- A program of 17 bytes does not fit a ROM of 16, one of 16 does (R81; V65). -/
theorem test_overlong_program_refused :
    Launch.fits { cfg := { Config.spec with romSize := 16 }, program := List.replicate 17 0x00 } = false ∧
    Launch.wellFormed { cfg := { Config.spec with romSize := 16 }, program := List.replicate 17 0x00 } = false ∧
    Launch.wellFormed { cfg := { Config.spec with romSize := 16 }, program := List.replicate 16 0x00 } = true := by
  decide

/-- An operand byte where the format has none, or none where it has one, is refused (R101). -/
theorem test_operand_mismatch_refused :
    operandFitsMode .implied (some 0x00) = false ∧ operandFitsMode .immediate none = false ∧
    operandFitsMode .zeroPage none = false ∧ operandFitsMode .relative none = false := by decide

/-- Cells out of order, repeated, or equal to what an unlisted address reads as, are no canonical memory. -/
theorem test_memory_form_refused :
    Memory.wf ⟨[(5, 1), (4, 1)]⟩ = false ∧ Memory.wf ⟨[(4, 1), (4, 2)]⟩ = false ∧ Memory.wf ⟨[(4, 0)]⟩ = false ∧
    Memory.wf ⟨[(4, 1), (5, 2)]⟩ = true ∧ Memory.within ⟨[(16, 1)]⟩ 16 = false := by decide

/-! ## Decoding: every row's word, bit by bit from its encoding -/

theorem test_decode_brk : decode [0b00000000, 0xB2] = .ok (.brk, [0xB2]) := rfl
theorem test_decode_asl : decode [0b00000110, 0b10110010, 0x00] = .ok (.asl 0xB2, [0x00]) := rfl
theorem test_decode_clc : decode [0b00011000, 0xB2] = .ok (.clc, [0xB2]) := rfl
theorem test_decode_and : decode [0b00100101, 0b10110010, 0x00] = .ok (.and 0xB2, [0x00]) := rfl
theorem test_decode_sec : decode [0b00111000, 0xB2] = .ok (.sec, [0xB2]) := rfl
theorem test_decode_cli : decode [0b01011000, 0xB2] = .ok (.cli, [0xB2]) := rfl
theorem test_decode_adc : decode [0b01100101, 0b10110010, 0x00] = .ok (.adc 0xB2, [0x00]) := rfl
theorem test_decode_sei : decode [0b01111000, 0xB2] = .ok (.sei, [0xB2]) := rfl
theorem test_decode_sta : decode [0b10000101, 0b10110010, 0x00] = .ok (.sta 0xB2, [0x00]) := rfl
theorem test_decode_dey : decode [0b10001000, 0xB2] = .ok (.dey, [0xB2]) := rfl
theorem test_decode_txa : decode [0b10001010, 0xB2] = .ok (.txa, [0xB2]) := rfl
theorem test_decode_bcc : decode [0b10010000, 0b10110010, 0x00] = .ok (.bcc 0xB2, [0x00]) := rfl
theorem test_decode_tya : decode [0b10011000, 0xB2] = .ok (.tya, [0xB2]) := rfl
theorem test_decode_ldy : decode [0b10100100, 0b10110010, 0x00] = .ok (.ldy 0xB2, [0x00]) := rfl
theorem test_decode_ldx : decode [0b10100110, 0b10110010, 0x00] = .ok (.ldx 0xB2, [0x00]) := rfl
theorem test_decode_tay : decode [0b10101000, 0xB2] = .ok (.tay, [0xB2]) := rfl
theorem test_decode_lda : decode [0b10101001, 0b10110010, 0x00] = .ok (.lda 0xB2, [0x00]) := rfl
theorem test_decode_tax : decode [0b10101010, 0xB2] = .ok (.tax, [0xB2]) := rfl
theorem test_decode_clv : decode [0b10111000, 0xB2] = .ok (.clv, [0xB2]) := rfl
theorem test_decode_iny : decode [0b11001000, 0xB2] = .ok (.iny, [0xB2]) := rfl
theorem test_decode_dex : decode [0b11001010, 0xB2] = .ok (.dex, [0xB2]) := rfl
theorem test_decode_cld : decode [0b11011000, 0xB2] = .ok (.cld, [0xB2]) := rfl
theorem test_decode_inc : decode [0b11100110, 0b10110010, 0x00] = .ok (.inc 0xB2, [0x00]) := rfl
theorem test_decode_inx : decode [0b11101000, 0xB2] = .ok (.inx, [0xB2]) := rfl
theorem test_decode_nop : decode [0b11101010, 0xB2] = .ok (.nop, [0xB2]) := rfl
theorem test_decode_sed : decode [0b11111000, 0xB2] = .ok (.sed, [0xB2]) := rfl

/-- Rejections by name: nothing to read, no row (0xA5 and 0x4C are Illegal here, V33, V60), an operand missing. -/
theorem test_decode_rejects :
    decode [] = .error .noBytes ∧ decode [0xA5, 0x10] = .error (.illegalOpcode 0xA5) ∧
    decode [0x4C] = .error (.illegalOpcode 0x4C) ∧ decode [0xA9] = .error (.missingOperand 0xA9) := ⟨rfl, rfl, rfl, rfl⟩

/-- A table word counts its bits from the first byte: `LDA #$80` (A9 80) is 0x80A9 (R101, R160). -/
theorem test_table_word :
    decodeTableWord 16 0x80A9 = some (.lda 0x80) ∧ decodeTableWord 8 0xA9 = some (.lda 0x00) ∧
    decodeTableWord 8 0xE8 = some .inx ∧ decodeTableWord 8 0xFF = none := by decide

/-! ## One tick of every instruction -/

/-- The start state of 95_test_vectors.md with instruction bytes at program address 0. -/
def startWith (bytes : List Byte) : State := { State.reset with rom := Memory.ofBytes bytes }

/-- The same, with RAM[addr] = v. -/
def withRam (s : State) (addr : Nat) (v : Byte) : State := { s with ram := s.ram.write addr v }

/-- The state a step answers. -/
def next? (s : State) : Option State :=
  match step s with
  | .next t => some t
  | .fault _ => none
  | .refused _ => none

/-- P from its packed byte, as the vectors write it (K3). -/
def unpack (b : Byte) : Status :=
  { c := b.getLsbD 0, z := b.getLsbD 1, i := b.getLsbD 2, d := b.getLsbD 3,
    b := b.getLsbD 4, u := b.getLsbD 5, v := b.getLsbD 6, n := b.getLsbD 7 }

/-- V1. -/
theorem test_and_masks : (next? (withRam { startWith [0x25, 0x10] with a := 0xF0 } 0x10 0x3C)).map
    (fun t => (t.a, t.pc, t.p.pack)) = some (0x30, 0x0002, 0x24) := by decide

/-- V4: C and V are kept. -/
theorem test_and_keeps_c_v : (next? (withRam { startWith [0x25, 0x10] with a := 0xFF, p := unpack 0x65 } 0x10 0xFF)).map
    (fun t => (t.a, t.pc, t.p.pack)) = some (0xFF, 0x0002, 0xE5) := by decide

/-- V8, V10, Documented: carry-in ignored; the sum wraps and V is untouched. -/
theorem test_adc_documented :
    (next? (withRam { startWith [0x65, 0x10] with a := 0x01, p := unpack 0x25 } 0x10 0x01)).map
      (fun t => (t.a, t.p.pack)) = some (0x02, 0x24) ∧
    (next? (withRam { startWith [0x65, 0x10] with a := 0x80 } 0x10 0x80)).map
      (fun t => (t.a, t.p.pack)) = some (0x00, 0x27) := by decide

/-- V10, V11, V13, Nmos6502Binary: overflow, carry-in, and the decimal fault at PC = 2. -/
theorem test_adc_nmos :
    (next? (withRam { startWith [0x65, 0x10] with a := 0x80, cfg := { Config.spec with adcVariant := .nmos6502Binary } }
      0x10 0x80)).map (fun t => (t.a, t.p.pack)) = some (0x00, 0x67) ∧
    (next? { startWith [0x65, 0x10] with
      a := 0xFF, p := unpack 0x25, cfg := { Config.spec with adcVariant := .nmos6502Binary } }).map
      (fun t => (t.a, t.p.pack)) = some (0x00, 0x27) ∧
    (next? { startWith [0x65, 0x10] with
      a := 0x10, p := unpack 0x2C, cfg := { Config.spec with adcVariant := .nmos6502Binary } }).map
      (fun t => (t.a, t.p.pack, t.pc, t.halt)) =
        some (0x10, 0x2C, 0x0002, .faulted (.decimalModeUnmodelled 0x65)) := by decide

/-- V14. -/
theorem test_asl_carry : (next? (withRam (startWith [0x06, 0x20]) 0x20 0x80)).map
    (fun t => (t.ram.cells, t.p.pack, t.pc)) = some ([], 0x27, 0x0002) := by decide

/-- V17. -/
theorem test_asl_ff : (next? (withRam (startWith [0x06, 0x20]) 0x20 0xFF)).map
    (fun t => (t.ram.read 0x20, t.p.pack, t.a)) = some (0xFE, 0xA5, 0x00) := by decide

/-- V20. -/
theorem test_lda : (next? (startWith [0xA9, 0x80])).map (fun t => (t.a, t.pc, t.p.pack)) =
    some (0x80, 0x0002, 0xA4) := by decide

/-- V23. -/
theorem test_ldx : (next? { startWith [0xA6, 0x10] with x := 0x05 }).map (fun t => (t.x, t.pc, t.p.pack)) =
    some (0x00, 0x0002, 0x26) := by decide

/-- V24: the highest zero-page address. -/
theorem test_ldy : (next? (withRam (startWith [0xA4, 0xFF]) 0xFF 0x01)).map (fun t => (t.y, t.pc, t.p.pack)) =
    some (0x01, 0x0002, 0x24) := by decide

/-- V26, V27: STA writes no flag; storing 0x00 leaves nothing listed. -/
theorem test_sta :
    (next? { startWith [0x85, 0x10] with p := unpack 0xA4 }).map (fun t => (t.ram.cells, t.p.pack)) =
      some ([], 0xA4) ∧
    (next? { startWith [0x85, 0x40] with a := 0x80 }).map (fun t => (t.ram.cells, t.pc)) =
      some ([(0x40, 0x80)], 0x0002) := by decide

/-- V28. -/
theorem test_tax : (next? { startWith [0xAA] with x := 0x07 }).map (fun t => (t.x, t.pc, t.p.pack)) =
    some (0x00, 0x0001, 0x26) := by decide

/-- V30. -/
theorem test_tay : (next? { startWith [0xA8] with a := 0x7F }).map (fun t => (t.y, t.a, t.p.pack)) =
    some (0x7F, 0x7F, 0x24) := by decide

/-- V31. -/
theorem test_txa : (next? { startWith [0x8A] with a := 0x55 }).map (fun t => (t.a, t.pc, t.p.pack)) =
    some (0x00, 0x0001, 0x26) := by decide

/-- V32. -/
theorem test_tya : (next? { startWith [0x98] with y := 0xC0 }).map (fun t => (t.a, t.y, t.p.pack)) =
    some (0xC0, 0xC0, 0xA4) := by decide

/-- V36: the wrap does not touch C. -/
theorem test_inx : (next? { startWith [0xE8] with x := 0xFF, p := unpack 0x25 }).map (fun t => (t.x, t.p.pack)) =
    some (0x00, 0x27) := by decide

/-- V37. -/
theorem test_iny : (next? { startWith [0xC8] with y := 0xFF }).map (fun t => (t.y, t.p.pack)) =
    some (0x00, 0x26) := by decide

/-- V38. -/
theorem test_dex : (next? (startWith [0xCA])).map (fun t => (t.x, t.pc, t.p.pack)) =
    some (0xFF, 0x0001, 0xA4) := by decide

/-- V42. -/
theorem test_dey : (next? { startWith [0x88] with y := 0x01 }).map (fun t => (t.y, t.p.pack)) =
    some (0x00, 0x26) := by decide

/-- V44. -/
theorem test_inc : (next? (withRam (startWith [0xE6, 0x40]) 0x40 0x7F)).map
    (fun t => (t.ram.cells, t.p.pack, t.pc)) = some ([(0x40, 0x80)], 0xA4, 0x0002) := by decide

/-- P after one flag instruction from P = 00 and from P = FF. -/
def flagRow (op : Byte) : Option Byte × Option Byte :=
  ((next? { startWith [op] with p := unpack 0x00 }).map (·.p.pack),
   (next? { startWith [op] with p := unpack 0xFF }).map (·.p.pack))

/-- V45 to V51. -/
theorem test_flag_instructions :
    flagRow 0x18 = (some 0x00, some 0xFE) ∧ flagRow 0x38 = (some 0x01, some 0xFF) ∧
    flagRow 0x58 = (some 0x00, some 0xFB) ∧ flagRow 0x78 = (some 0x04, some 0xFF) ∧
    flagRow 0xD8 = (some 0x00, some 0xF7) ∧ flagRow 0xF8 = (some 0x08, some 0xFF) ∧
    flagRow 0xB8 = (some 0x00, some 0xBF) := by decide

/-- PC after one BCC at 0x0000. -/
def bccPc (polarity : BccPolarity) (p rel : Byte) : Option Addr :=
  (next? { startWith [0x90, rel] with p := unpack p, cfg := { Config.spec with bccTakenOn := polarity } }).map (·.pc)

/-- V54 to V56, CarrySet. -/
theorem test_bcc_carry_set :
    bccPc .carrySet 0x25 0xFE = some 0x0000 ∧ bccPc .carrySet 0x25 0x7F = some 0x0081 ∧
    bccPc .carrySet 0x25 0x80 = some 0xFF82 ∧ bccPc .carrySet 0x24 0x80 = some 0x0002 := by decide

/-- V53, V56, CarryClear. -/
theorem test_bcc_carry_clear :
    bccPc .carryClear 0x25 0x04 = some 0x0002 ∧ bccPc .carryClear 0x24 0x04 = some 0x0006 ∧
    bccPc .carryClear 0x24 0x80 = some 0xFF82 := by decide

/-- V57: only PC changes. -/
theorem test_nop : next? (startWith [0xEA]) = some { startWith [0xEA] with pc := 0x0001 } := by decide

/-- V58: BRK pushes nothing and records its fault. -/
theorem test_brk : next? (startWith [0x00]) =
    some { startWith [0x00] with pc := 0x0001, halt := .faulted (.unimplemented 0x00) } := by decide

/-- V59: the byte after an Illegal opcode is not fetched. -/
theorem test_illegal : next? (startWith [0x02, 0xA9]) =
    some { startWith [0x02, 0xA9] with pc := 0x0001, halt := .faulted (.illegalOpcode 0x02) } := by decide

/-- V63, tick 2: the opcode fetch at 0x0002 of a ROM of 2 bytes; PC is not advanced. -/
theorem test_opcode_fetch_out_of_range :
    (next? { startWith [0xA9, 0x00] with pc := 0x0002, cfg := { Config.spec with romSize := 2 } }).map
      (fun t => (t.pc, t.halt)) = some (0x0002, .faulted (.memoryOutOfRange .program 0x0002)) := by decide

/-- V64: the operand fetch at 0x0001 of a ROM of 1 byte; A and P unchanged. -/
theorem test_operand_fetch_out_of_range :
    (next? { startWith [0xA9] with cfg := { Config.spec with romSize := 1 } }).map
      (fun t => (t.a, t.p.pack, t.pc, t.halt)) =
        some (0x00, 0x24, 0x0001, .faulted (.memoryOutOfRange .program 0x0001)) := by decide

/-- S8b: a further tick of a faulted core takes no step. -/
theorem test_faulted_core_stays : tick (tick (startWith [0xFF])) = tick (startWith [0xFF]) ∧
    next? (tick (startWith [0xFF])) = none := by decide

/-- R57, R80, R284, V67: what the host reads after construction, with P = 0x24, or 0x00 for INIT_P = {}. The sizes are small
so that the contents can be written out. -/
theorem test_construction :
    (construct { cfg := { Config.spec with romSize := 4, ramSize := 2 }, program := [0xA9, 0x80] }).map inspect =
      some { a := 0x00, x := 0x00, y := 0x00, sp := 0xFD, pc := 0x0000, p := unpack 0x24,
             rom := [0xA9, 0x80, 0x00, 0x00], ram := [0x00, 0x00], halt := .running, packedP := 0x24 } ∧
    (construct { cfg := { Config.spec with initP := unpack 0x00 }, program := [] }).map (·.p.pack) = some 0x00 := by
  decide

/-- R105, R109, R194, V43: INC consumes two bytes (log 24). -/
theorem test_inc_is_two_bytes :
    Instr.length (.inc 0x40) = 2 ∧ opcodeLength 0xE6 = 2 ∧ (next? (startWith [0xE6, 0x40])).map (·.pc) = some 0x0002 := by decide

/-- R109: the control-signal rows of ASL, ADC under both variants, and Illegal, as the table has them. -/
theorem test_control_signals :
    (signalsOf .documented (.asl 0x20)).flagsWritten = [.c, .z, .n] ∧
    (signalsOf .documented (.adc 0x20)).sources = [.a, .mem] ∧
    (signalsOf .nmos6502Binary (.adc 0x20)).sources = [.a, .mem, .flag .c] ∧
    (Decoded.signals .documented (.illegal 0xFF)).raises = some (.illegalOpcode 0xFF) := by decide

/-! ## Witnesses: every statement's hypotheses are met by some state and operands -/

theorem witness_OpcodeTableDecodes : (0x01 : Byte) ∉ mappedOpcodes ∧ (0xFF : Byte) ∉ mappedOpcodes := by decide

theorem witness_DecodeInvertsEncode : decode [0xA9, 0x80, 0xEA] = .ok (.lda 0x80, [0xEA]) ∧
    decode [0xEA] = .ok (.nop, []) := ⟨rfl, rfl⟩

theorem witness_IllegalBytesAreTheListedRanges :
    decode [0x01] = .error (.illegalOpcode 0x01) ∧ decode [0xFF, 0x00] = .error (.illegalOpcode 0xFF) := ⟨rfl, rfl⟩

/-- A one-byte instruction at the top of ROM, a two-byte one that wraps PC, and an Illegal byte. -/
theorem witness_FetchConsumesExactlyTheInstruction :
    (∃ t, fetch (startWith [0xEA]) = .decoded (.instr .nop) t) ∧
    (∃ t, fetch { State.reset with pc := 0xFFFF, rom := ⟨[(0, 0x80), (65535, 0xA9)]⟩ } =
      .decoded (.instr (.lda 0x80)) t ∧ t.pc = 0x0001) ∧
    ∃ t, fetch (startWith [0xFF]) = .decoded (.illegal 0xFF) t := ⟨⟨_, rfl⟩, ⟨_, rfl, rfl⟩, ⟨_, rfl⟩⟩

theorem witness_StepRunsTheDecodedInstruction :
    let s := { State.reset with pc := 0xFFFF, rom := ⟨[(0, 0x80), (65535, 0xA9)]⟩ }
    s.Running ∧ decode [romByte s s.pc, romByte s (s.pc + 1#16)] = .ok (.lda 0x80, []) ∧
      ∀ k, k < (Instr.lda 0x80).length → (s.pc + BitVec.ofNat 16 k).toNat < s.cfg.romSize :=
  ⟨rfl, rfl, by decide⟩

theorem witness_IllegalOpcodeIsRecorded :
    let s := { startWith [0x00, 0xFF] with pc := 0x0001, cfg := { Config.spec with romSize := 2 } }
    s.Running ∧ s.pc.toNat < s.cfg.romSize ∧ romByte s s.pc ∉ mappedOpcodes := by decide

/-- Each clause at the first address out of range. -/
theorem witness_FetchOutOfRangeIsRecorded :
    (let s := { startWith [0xA9, 0x00] with pc := 0x0002, cfg := { Config.spec with romSize := 2 } }
     s.Running ∧ s.cfg.romSize ≤ s.pc.toNat) ∧
    (let s := { startWith [0xA9] with cfg := { Config.spec with romSize := 1 } }
     s.Running ∧ s.pc.toNat < s.cfg.romSize ∧
       decode [romByte s s.pc, romByte s (s.pc + 1#16)] = .ok (.lda 0x00, []) ∧ (Instr.lda 0x00).length = 2 ∧
       s.cfg.romSize ≤ (s.pc + 1#16).toNat) :=
  ⟨⟨rfl, by decide⟩, rfl, by decide, rfl, rfl, by decide⟩

theorem witness_FaultedCoreTakesNoStep : (tick (startWith [0xFF])).halt = .faulted (.illegalOpcode 0xFF) := by decide

/-- A step that answers a next state, and one that answers a fault. -/
theorem witness_RunningCoreAlwaysSteps : State.reset.Running ∧ (∃ t, step (startWith [0xEA]) = .next t) ∧
    step (tick (startWith [0xFF])) = .fault (.illegalOpcode 0xFF) := ⟨rfl, ⟨_, rfl⟩, rfl⟩

/-- One state for each line of R255's table. -/
theorem witness_FaultsArePrecise :
    (∃ t, step { startWith [] with pc := 0x0001, cfg := { Config.spec with romSize := 1 } } = .next t ∧
      t.halt = .faulted (.memoryOutOfRange .program 0x0001)) ∧
    (∃ t, step { startWith [0xA9] with cfg := { Config.spec with romSize := 1 } } = .next t ∧
      t.halt = .faulted (.memoryOutOfRange .program 0x0001)) ∧
    (∃ t, step (startWith [0x01]) = .next t ∧ t.halt = .faulted (.illegalOpcode 0x01)) ∧
    (∃ t, step (startWith [0x00]) = .next t ∧ t.halt = .faulted (.unimplemented 0x00)) ∧
    (∃ t, step { startWith [0x25, 0xFF] with cfg := { Config.spec with ramSize := 255 } } = .next t ∧
      t.halt = .faulted (.memoryOutOfRange .data 0x00FF)) ∧
    ∃ t, step { startWith [0x65, 0x10] with
      p := unpack 0x2C, cfg := { Config.spec with adcVariant := .nmos6502Binary } } = .next t ∧
      t.halt = .faulted (.decimalModeUnmodelled 0x65) :=
  ⟨⟨_, rfl, rfl⟩, ⟨_, rfl, rfl⟩, ⟨_, rfl, rfl⟩, ⟨_, rfl, rfl⟩, ⟨_, rfl, rfl⟩, ⟨_, rfl, rfl⟩⟩

theorem witness_FaultsAreForever : runCompletes (1 + 1) (startWith [0xEA, 0xEA]) := by decide

/-- Taken and not taken, both polarities, ROM just large enough. -/
theorem witness_BranchIsRelativeToTheNextInstruction :
    let s := { startWith [0x90, 0x80] with p := unpack 0x25, cfg := { Config.spec with romSize := 2 } }
    s.Running ∧ romByte s s.pc = 0x90 ∧ s.pc.toNat < s.cfg.romSize ∧ (s.pc + 1#16).toNat < s.cfg.romSize ∧
      s.cfg.bccTakenOn = .carrySet ∧ s.p.c = true := by decide

/-- Construction succeeds for a program that fills ROM, and is rejected for one byte more. -/
theorem witness_ConstructedMemories :
    (∃ s, construct { cfg := { Config.spec with romSize := 2 }, program := [0xA9, 0x80] } = some s) ∧
    construct { cfg := { Config.spec with romSize := 1 }, program := [0xA9, 0x80] } = none := ⟨⟨_, rfl⟩, rfl⟩

theorem witness_ConstructedRegisters :
    ∃ s, construct { cfg := { Config.spec with initP := unpack 0x00 }, program := [] } = some s := ⟨_, rfl⟩

theorem witness_LegalLaunchMeetsInvariant :
    Launch.wellFormed { cfg := { Config.spec with romSize := 2, ramSize := 256 }, program := [0xA9, 0x80] } = true := by
  decide

/-- The reset state meets the invariant's clauses, and steps. -/
theorem witness_StepKeepsInvariant : State.reset.Inv ∧ ∃ t, step State.reset = .next t :=
  ⟨⟨rfl, rfl, rfl, rfl, rfl, rfl, rfl, rfl, fun _ h => h, by simp [State.reset]⟩, _, rfl⟩

theorem witness_ReachableStatesMeetInvariant :
    Launch.wellFormed { cfg := Config.spec, program := [0xEA] } = true ∧
    ∃ s, construct { cfg := Config.spec, program := [0xEA] } = some s := ⟨by decide, _, rfl⟩

theorem witness_FullSizeMemoriesNeverFault :
    let s := { startWith [0x25, 0xFF] with cfg := { Config.spec with ramSize := 256 } }
    256 ≤ s.cfg.ramSize ∧ s.cfg.romSize = 65536 ∧ s.Running ∧ ∃ t, step s = .next t :=
  ⟨by decide, rfl, rfl, _, rfl⟩

theorem witness_UpdatesWrapModuloWidth : ({ State.reset with pc := 0xFFFF } : State).pc = 0xFFFF := rfl

/-- Both sides of each range check, at the boundary. -/
theorem witness_AccessesAreRangeChecked :
    let s := { State.reset with cfg := { Config.spec with romSize := 16, ramSize := 256 } }
    (0x000F : Addr).toNat < s.cfg.romSize ∧ s.cfg.romSize ≤ (0x0010 : Addr).toNat ∧
      (0x00FF : Addr).toNat < s.cfg.ramSize ∧ s.cfg.ramSize ≤ (0x0100 : Addr).toNat := by decide

theorem witness_DataWriteThenRead :
    State.reset.ram.wf = true ∧ ∃ t, State.reset.memWrite 0xFFFF 0x80 = .ok t := ⟨rfl, _, rfl⟩

/-- The in-range premise of the data instructions, at the last address of the smallest legal RAM. -/
def smallRam (variant : AdcVariant) (p : Byte) : State :=
  { State.reset with p := unpack p, cfg := { Config.spec with ramSize := 256, adcVariant := variant } }

theorem witness_AndResult : InRange (smallRam .documented 0x24) 0xFF := by unfold InRange; decide

theorem witness_AdcDocumentedResult : (smallRam .documented 0x2D).cfg.adcVariant = .documented ∧
    InRange (smallRam .documented 0x2D) 0xFF := by unfold InRange; decide

/-- Both clauses: D = 1, and D = 0 in range. -/
theorem witness_AdcNmosResult :
    (smallRam .nmos6502Binary 0x2C).cfg.adcVariant = .nmos6502Binary ∧ (smallRam .nmos6502Binary 0x2C).p.d = true ∧
    (smallRam .nmos6502Binary 0x25).p.d = false ∧ InRange (smallRam .nmos6502Binary 0x25) 0xFF := by
  unfold InRange; decide

theorem witness_AslResult : (smallRam .documented 0x24).ram.wf = true ∧ InRange (smallRam .documented 0x24) 0xFF := by
  unfold InRange; decide

theorem witness_LdxLdyResult : InRange (smallRam .documented 0x24) 0x00 := by unfold InRange; decide

theorem witness_StaResult :
    (withRam (smallRam .documented 0x24) 0xFF 0x80).ram.wf = true ∧
    InRange (withRam (smallRam .documented 0x24) 0xFF 0x80) 0xFF := by unfold InRange; decide

theorem witness_IncResult :
    (withRam (smallRam .documented 0x24) 0xFF 0xFF).ram.wf = true ∧
    InRange (withRam (smallRam .documented 0x24) 0xFF 0xFF) 0xFF := by unfold InRange; decide

theorem witness_NopResult :
    (let s := { startWith [0xEA] with cfg := { Config.spec with romSize := 1 } }
     s.Running ∧ s.pc.toNat < s.cfg.romSize ∧ romByte s s.pc = 0xEA) ∧
    Instr.bcc 0xFF ≠ .nop := by decide

/-- Both clauses at the first address out of a RAM of 16 bytes. -/
theorem witness_DataOutOfRangeIsRecorded :
    let s := { State.reset with cfg := { Config.spec with ramSize := 16 } }
    ¬ InRange s 0x10 ∧ s.cfg.adcVariant = .documented ∧ s.p.d = false := by
  refine ⟨?_, rfl, rfl⟩
  unfold InRange
  decide

theorem witness_OnlyListedFlagsChange : (∃ t, exec .inx State.reset = .next t) ∧
    Flag.c ∉ (signalsOf State.reset.cfg.adcVariant .inx).flagsWritten := ⟨⟨_, rfl⟩, by decide⟩

theorem witness_OnlyTheDestinationChanges : (∃ t, exec .inx State.reset = .next t) ∧
    (signalsOf State.reset.cfg.adcVariant .inx).destination ≠ some .a ∧
    (signalsOf State.reset.cfg.adcVariant .inx).destination ≠ some .y ∧
    (signalsOf State.reset.cfg.adcVariant .iny).destination ≠ some .x ∧ ∀ rel, Instr.inx ≠ .bcc rel :=
  ⟨⟨_, rfl⟩, by decide, by decide, by decide, by simp⟩

theorem witness_OnlyTheStoredByteChanges : (∃ t, exec (.sta 0xFF) (State.reset.setA 0x80) = .next t) ∧
    ∃ t, exec .inx State.reset = .next t := ⟨⟨_, rfl⟩, _, rfl⟩

/-- Both sides of the zero page's bound. -/
theorem witness_ZeroPageOperandNamesItsAddress :
    (0x00FF : Addr).toNat ≤ 0x00FF ∧ dataAddr 0xFF = 0x00FF ∧ ¬ (0x0100 : Addr).toNat ≤ 0x00FF := by decide

theorem witness_ZeroAndNegativeDescribeTheResult :
    State.reset.ram.wf = true ∧ ∃ t, exec (.inc 0x40) State.reset = .next t ∧ t.Running ∧
      resultByte State.reset.cfg.adcVariant (.inc 0x40) t = some 0x01 ∧ ∀ zp, Instr.inc 0x40 ≠ .sta zp :=
  ⟨rfl, _, rfl, rfl, by decide, by simp⟩

theorem witness_UnreadFlagsSteerNothing :
    UnreadFlag State.reset.cfg.adcVariant .d ∧ UnreadFlag State.reset.cfg.adcVariant .v ∧
    ∃ t, step (startWith [0x65, 0x10]) = .next t := ⟨rfl, trivial, _, rfl⟩

theorem witness_OnlySevenInstructionsReachRam : ¬ ReachesRam .inx ∧ ¬ ReachesRam (.lda 0x80) := by
  simp [ReachesRam]

/-- ASL names none of the three registers. -/
theorem witness_UnnamedRegistersPlayNoPart :
    .a ∉ (signalsOf .documented (.asl 0x20)).sources ∧ .x ∉ (signalsOf .documented (.asl 0x20)).sources ∧
    .y ∉ (signalsOf .documented (.asl 0x20)).sources ∧
    (signalsOf .documented (.asl 0x20)).destination = some .mem := by decide

/-- Two states that look the same, and the last address in range and the first out of it. -/
theorem witness_InspectionShowsTheWholeState :
    (∃ s t : State, s.Inv ∧ t.Inv ∧ s.cfg = t.cfg ∧ inspect s = inspect t) ∧
    (let s := { startWith [0xA9, 0x80] with cfg := { Config.spec with romSize := 2 } }
     (inspect s).rom[1]? = some 0x80 ∧ (inspect s).rom[2]? = none) :=
  ⟨⟨State.reset, State.reset, witness_StepKeepsInvariant.1, witness_StepKeepsInvariant.1, rfl, rfl⟩, rfl, rfl⟩

/-- One opcode of each length, an encoding of each, and a fetch of an Illegal byte. -/
theorem witness_LengthIsDecidedByTheOpcode :
    encode (.inc 0x40) = [0xE6, 0x40] ∧ encode .brk = [0x00] ∧
      fetch (startWith [0xFF]) = .decoded (.illegal 0xFF) (startWith [0xFF]).advancePc := by decide

theorem witness_PlacedWordRunsNext :
    State.reset.rom.wf = true ∧ decodeTableWord 16 0x80A9 = some (.lda 0x80) ∧ decodeTableWord 8 0xEA = some .nop := by
  decide

end Sys2Proof.Tests
end

/-! # Proofs of the family 10_state: the status register, set_zn, wrapping updates, and the flags an instruction writes -/

/-! ## The status register's helpers (R48, R49) -/

namespace Sys2Proof

/-- `is_empty` holds exactly when no flag is set (R48). -/
theorem Status.isEmpty_iff (p : Status) : p.isEmpty = true ↔ ∀ f, p.get f = false := by
  constructor
  · intro h f
    simp only [Status.isEmpty, Bool.not_eq_true', Bool.or_eq_false_iff] at h
    cases f <;> simp [Status.get, h]
  · intro h
    have hp : p = ⟨false, false, false, false, false, false, false, false⟩ :=
      Status.ext_get fun f => by rw [h f]; cases f <;> rfl
    rw [hp]
    rfl

/-- `set_zn` as one record update, N read as bit 7 (R49). -/
theorem Status.setZN_eq (p : Status) (v : Byte) :
    p.setZN v = { p with z := decide (v = 0#8), n := v.getLsbD 7 } :=
  Status.ext_get fun f => by cases f <;> simp [Status.get, BitVec.msb_eq_getLsbD_last]

end Sys2Proof

namespace Sys2Proof.Machine

/-- Settles O22: on the state, `set_zn` replaces P alone. -/
theorem setZnWritesZeroAndNegative : Obligations.SetZnWritesZeroAndNegative := by
  intro s v
  rw [State.setZN, Status.setZN_eq]

/-- Settles O23, from `Status.get_set` and `Status.isEmpty_iff`. -/
theorem flagPrimitives : Obligations.FlagPrimitives := by
  intro s f g b
  refine ⟨?_, ?_, rfl, s.p.isEmpty_iff⟩
  · simp
  · intro hne
    simp [hne]

/-! ## Updates modulo the width of the register (R36) -/

theorem advancePc_pc_toNat (s : State) : s.advancePc.pc.toNat = (s.pc.toNat + 1) % 65536 := by
  simp [BitVec.toNat_add]

theorem branchTarget_toNat (pc : Addr) (rel : Byte) :
    ((branchTarget pc rel).toNat : Int) = ((pc.toNat : Int) + sext16 rel) % 65536 := by
  rw [branchTarget, BitVec.toNat_ofInt]
  omega

theorem increment_toNat (v : Byte) : (increment v).toNat = (v.toNat + 1) % 256 := by
  simp [increment, BitVec.toNat_add]

theorem decrement_toNat (v : Byte) : (decrement v).toNat = (v.toNat + 255) % 256 := by
  rw [decrement, BitVec.toNat_sub, BitVec.toNat_ofNat]
  omega

/-- Settles O26: each update's value, read as a number. -/
theorem updatesWrapModuloWidth : Obligations.UpdatesWrapModuloWidth := by
  refine ⟨advancePc_pc_toNat, ?_, branchTarget_toNat, ?_, narrow_toNat⟩
  · intro s hpc
    rw [State.advancePc_pc, hpc]
    decide
  · exact fun v => ⟨increment_toNat v, decrement_toNat v⟩

/-! ## What the seven instructions that reach RAM can answer

Each answers the state of its rule, with the byte its access gave, or records a fault in the state it began in. -/

/-- An instruction that ends by concluding answers its own state or records a fault. -/
theorem conclude_next_cases {s t : State} {outcome : Except Fault State} (h : s.conclude outcome = .next t) :
    outcome = .ok t ∨ ∃ r, t = s.raise r :=
  (conclude_eq_next.mp h).imp_right fun ⟨r, _, ht⟩ => ⟨r, ht⟩

/-- An instruction that begins with the read of its operand goes on with the byte read or records a fault. -/
theorem conclude_readZp_cases {s t : State} {zp : Byte} {rest : Byte → Except Fault State}
    (h : s.conclude (s.readZp zp >>= rest) = .next t) :
    (∃ m, s.readZp zp = .ok m ∧ rest m = .ok t) ∨ ∃ r, t = s.raise r :=
  (conclude_next_cases h).imp_left except_bind_ok.mp

/-- An instruction that reads its operand and computes its state from the byte. -/
theorem conclude_read_cases {s t : State} {zp : Byte} {result : Byte → State}
    (h : s.conclude (s.readZp zp >>= fun m => pure (result m)) = .next t) :
    (∃ m, s.readZp zp = .ok m ∧ t = result m) ∨ ∃ r, t = s.raise r :=
  (conclude_readZp_cases h).imp_left fun ⟨m, hm, ht⟩ => ⟨m, hm, (Except.ok.inj ht).symm⟩

/-- A store that succeeds writes the named byte of RAM alone (R76, R103). -/
theorem writeZp_ok {s t : State} {zp v : Byte} (h : s.writeZp zp v = .ok t) :
    t = { s with ram := s.ram.write (dataAddr zp).toNat v } :=
  (memWrite_ok.mp h).2

/-- A read-modify-write instruction: it stores the new byte in the state prepared for it and ends with `set_zn`. -/
theorem conclude_readModifyWrite_cases {s t : State} {zp : Byte} {prepared : Byte → State} {modify : Byte → Byte}
    (h : s.conclude (s.readZp zp >>= fun m =>
      (prepared m).writeZp zp (modify m) >>= fun stored => pure (stored.setZN (modify m))) = .next t) :
    (∃ m, s.readZp zp = .ok m ∧
      t = State.setZN { prepared m with ram := (prepared m).ram.write (dataAddr zp).toNat (modify m) } (modify m)) ∨
    ∃ r, t = s.raise r := by
  obtain ⟨m, hm, ht⟩ | hr := conclude_readZp_cases h
  · obtain ⟨stored, hw, ht⟩ := except_bind_ok.mp ht
    rw [writeZp_ok hw] at ht
    exact .inl ⟨m, hm, (Except.ok.inj ht).symm⟩
  · exact .inr hr

theorem execAnd_cases {zp : Byte} {s t : State} (h : execAnd zp s = .next t) :
    (∃ m, s.readZp zp = .ok m ∧ t = (s.setA (s.a &&& m)).setZN (s.a &&& m)) ∨ ∃ r, t = s.raise r :=
  conclude_read_cases h

theorem execLdx_cases {zp : Byte} {s t : State} (h : execLdx zp s = .next t) :
    (∃ m, s.readZp zp = .ok m ∧ t = (s.setX m).setZN m) ∨ ∃ r, t = s.raise r :=
  conclude_read_cases h

theorem execLdy_cases {zp : Byte} {s t : State} (h : execLdy zp s = .next t) :
    (∃ m, s.readZp zp = .ok m ∧ t = (s.setY m).setZN m) ∨ ∃ r, t = s.raise r :=
  conclude_read_cases h

theorem execSta_cases {zp : Byte} {s t : State} (h : execSta zp s = .next t) :
    t = { s with ram := s.ram.write (dataAddr zp).toNat s.a } ∨ ∃ r, t = s.raise r :=
  (conclude_next_cases h).imp_left writeZp_ok

theorem execInc_cases {zp : Byte} {s t : State} (h : execInc zp s = .next t) :
    (∃ m, s.readZp zp = .ok m ∧
      t = State.setZN { s with ram := s.ram.write (dataAddr zp).toNat (increment m) } (increment m)) ∨
    ∃ r, t = s.raise r :=
  conclude_readModifyWrite_cases (prepared := fun _ => s) h

theorem execAsl_cases {zp : Byte} {s t : State} (h : execAsl zp s = .next t) :
    (∃ m, s.readZp zp = .ok m ∧
      t = State.setZN { s.setFlag .c m.msb with ram := s.ram.write (dataAddr zp).toNat (narrow (m.toNat * 2)) }
        (narrow (m.toNat * 2))) ∨
    ∃ r, t = s.raise r :=
  conclude_readModifyWrite_cases (prepared := fun m => s.setFlag .c m.msb) h

/-- ADC by its variant: only Nmos6502Binary adds P.C and writes V, and it completes only with D = 0 (R141). -/
theorem execAdc_cases {zp : Byte} {s t : State} (h : execAdc zp s = .next t) :
    (s.cfg.adcVariant = .documented ∧ ∃ m, s.readZp zp = .ok m ∧
      t = ((s.setFlag .c (carryOut (s.a.toNat + m.toNat))).setA (narrow (s.a.toNat + m.toNat))).setZN
        (narrow (s.a.toNat + m.toNat))) ∨
    (s.cfg.adcVariant = .nmos6502Binary ∧ s.p.d = false ∧ ∃ m sum, s.readZp zp = .ok m ∧
      sum = s.a.toNat + m.toNat + s.p.c.toNat ∧
      t = (((s.setFlag .v (overflow8 s.a m (narrow sum))).setFlag .c (carryOut sum)).setA (narrow sum)).setZN
        (narrow sum)) ∨
    ∃ r, t = s.raise r := by
  unfold execAdc at h
  cases hv : s.cfg.adcVariant with
  | documented =>
    rw [hv] at h
    obtain ⟨m, hm, ht⟩ | hr := conclude_read_cases h
    · exact .inl ⟨rfl, m, hm, ht⟩
    · exact .inr (.inr hr)
  | nmos6502Binary =>
    rw [hv] at h
    simp only [adcNmos] at h
    split at h
    · exact .inr (.inr ⟨_, (Host.Outcome.next.inj h).symm⟩)
    case isFalse hd =>
      obtain ⟨m, hm, ht⟩ | hr := conclude_read_cases h
      · exact .inr (.inl ⟨rfl, by simpa using hd, m, _, hm, rfl, ht⟩)
      · exact .inr (.inr hr)

/-! ## The flags an instruction writes (R50) -/

/-- Every flag outside a list keeps its value from one state to the other. -/
def FlagsKeptOutside (written : List Flag) (s t : State) : Prop :=
  ∀ f, f ∉ written → t.p.get f = s.p.get f

theorem FlagsKeptOutside.of_p_eq {written : List Flag} {s t : State} (h : t.p = s.p) :
    FlagsKeptOutside written s t :=
  fun _ _ => by rw [h]

/-- A further write, to a flag of the list. -/
theorem FlagsKeptOutside.setFlag {written : List Flag} {s t : State} {f : Flag} {b : Bool}
    (h : FlagsKeptOutside written s t) (hf : f ∈ written) : FlagsKeptOutside written s (t.setFlag f b) := by
  intro g hg
  have hgf : g ≠ f := fun heq => hg (heq ▸ hf)
  simp [hgf, h g hg]

/-- A further `set_zn`, where the list holds Z and N; `u` is the state it is applied to, which may differ from `t`
outside P. -/
theorem FlagsKeptOutside.setZN {written : List Flag} {s t u : State} {v : Byte} (h : FlagsKeptOutside written s t)
    (hu : u.p = t.p) (hz : .z ∈ written) (hn : .n ∈ written) : FlagsKeptOutside written s (u.setZN v) := by
  intro g hg
  have hgz : g ≠ .z := fun heq => hg (heq ▸ hz)
  have hgn : g ≠ .n := fun heq => hg (heq ▸ hn)
  simp [hgz, hgn, hu, h g hg]

/-- An instruction that writes one flag and nothing else of P. -/
theorem flagsKept_setFlag_only (s : State) (f : Flag) (b : Bool) : FlagsKeptOutside [f] s (s.setFlag f b) :=
  (FlagsKeptOutside.of_p_eq rfl).setFlag (by simp)

/-- An instruction whose only effect on P is `set_zn`. -/
theorem flagsKept_setZN_only {s u : State} {v : Byte} (hu : u.p = s.p) :
    FlagsKeptOutside [.z, .n] s (u.setZN v) :=
  (FlagsKeptOutside.of_p_eq rfl).setZN hu (by simp) (by simp)

/-- An instruction on the byte its operand names, whose only effect on P is `set_zn` or which records a fault. -/
theorem flagsKept_setZN_or_raise {s t : State} {zp : Byte} {u : Byte → State} {v : Byte → Byte}
    (h : (∃ m, s.readZp zp = .ok m ∧ t = (u m).setZN (v m)) ∨ ∃ r, t = s.raise r) (hu : ∀ m, (u m).p = s.p) :
    FlagsKeptOutside [.z, .n] s t := by
  obtain ⟨m, -, rfl⟩ | ⟨r, rfl⟩ := h
  · exact flagsKept_setZN_only (hu m)
  · exact .of_p_eq rfl

/-- ASL writes C, then Z and N (R143). -/
theorem execAsl_flagsKept {zp : Byte} {s t : State} (h : execAsl zp s = .next t) :
    FlagsKeptOutside [.c, .z, .n] s t := by
  obtain ⟨m, -, rfl⟩ | ⟨r, rfl⟩ := execAsl_cases h
  · have hc : FlagsKeptOutside [.c, .z, .n] s (s.setFlag .c m.msb) :=
      (FlagsKeptOutside.of_p_eq rfl).setFlag (by simp)
    exact hc.setZN rfl (by simp) (by simp)
  · exact .of_p_eq rfl

/-- ADC writes C, Z and N, and V under Nmos6502Binary alone (R141). -/
theorem execAdc_flagsKept {zp : Byte} {s t : State} (h : execAdc zp s = .next t) :
    FlagsKeptOutside (signalsAdc zp s.cfg.adcVariant).flagsWritten s t := by
  obtain ⟨hv, m, -, rfl⟩ | ⟨hv, -, m, sum, -, -, rfl⟩ | ⟨r, rfl⟩ := execAdc_cases h
  · have hc : FlagsKeptOutside [.c, .z, .n] s (s.setFlag .c (carryOut (s.a.toNat + m.toNat))) :=
      (FlagsKeptOutside.of_p_eq rfl).setFlag (by simp)
    rw [hv]
    exact hc.setZN rfl (by simp) (by simp)
  · have hvc : FlagsKeptOutside [.c, .z, .n, .v] s
        ((s.setFlag .v (overflow8 s.a m (narrow sum))).setFlag .c (carryOut sum)) :=
      ((FlagsKeptOutside.of_p_eq rfl).setFlag (by simp)).setFlag (by simp)
    rw [hv]
    exact hvc.setZN rfl (by simp) (by simp)
  · exact .of_p_eq rfl

/-- The column "flags written" of an instruction's control-signal record bounds what its meaning writes. -/
theorem exec_flagsKept {i : Instr} {s t : State} (h : exec i s = .next t) :
    FlagsKeptOutside (signalsOf s.cfg.adcVariant i).flagsWritten s t := by
  cases i
  case adc => exact execAdc_flagsKept h
  case asl => exact execAsl_flagsKept h
  case and => exact flagsKept_setZN_or_raise (execAnd_cases h) fun _ => rfl
  case ldx => exact flagsKept_setZN_or_raise (execLdx_cases h) fun _ => rfl
  case ldy => exact flagsKept_setZN_or_raise (execLdy_cases h) fun _ => rfl
  case inc => exact flagsKept_setZN_or_raise (execInc_cases h) fun _ => rfl
  case sta =>
    obtain rfl | ⟨r, rfl⟩ := execSta_cases h
    · exact .of_p_eq rfl
    · exact .of_p_eq rfl
  case lda | tax | tay | txa | tya | inx | iny | dex | dey =>
    obtain rfl := Host.Outcome.next.inj h
    exact flagsKept_setZN_only rfl
  case clc | cld | cli | clv | sec | sed | sei =>
    obtain rfl := Host.Outcome.next.inj h
    exact flagsKept_setFlag_only s _ _
  case nop | brk =>
    obtain rfl := Host.Outcome.next.inj h
    exact .of_p_eq rfl
  case bcc =>
    obtain rfl := Host.Outcome.next.inj h
    refine .of_p_eq ?_
    split
    · rfl
    · rfl

/-- Settles O46, from the flags each instruction's answer keeps. -/
theorem onlyListedFlagsChange : Obligations.OnlyListedFlagsChange :=
  fun _ _ _ h => exec_flagsKept h

end Sys2Proof.Machine

/-! # Proofs of the family 20_memory: the constructed memories, and the address a zero-page operand names -/

namespace Sys2Proof.Machine

/-! ## Construction (R80, R81) -/

/-- Construction answers for a program that fits, and then with the constructed state (R81, R280). -/
theorem construct_eq_some {l : Launch} {s : State} :
    construct l = some s ↔ l.fits = true ∧ s = constructedState l := by
  rw [construct, Option.ite_none_right_eq_some, Option.some_inj, eq_comm (a := s)]

/-- ROM after construction: the program, then the zero fill (R80). -/
theorem constructedState_rom_read (l : Launch) (a : Nat) :
    (constructedState l).rom.read a = l.program.getD a 0x00 :=
  Memory.ofBytes_read l.program a

/-- RAM after construction: the zero fill alone (R80). -/
theorem constructedState_ram_read (l : Launch) (a : Nat) : (constructedState l).ram.read a = 0x00 :=
  Memory.ofBytes_read [] a

/-- Settles O13: the state is the constructed one, whose memories are laid out by `Memory.ofBytes`. -/
theorem constructedMemories : Obligations.ConstructedMemories := by
  intro l s h
  obtain ⟨-, rfl⟩ := construct_eq_some.mp h
  exact ⟨constructedState_rom_read l, constructedState_ram_read l⟩

/-! ## The zero page (R73, R103) -/

/-- The named address is the operand byte zero-extended. -/
theorem dataAddr_eq_setWidth (zp : Byte) : dataAddr zp = zp.setWidth 16 := BitVec.ofNat_toNat 16 zp

/-- The zero page is the range of `dataAddr`: an address in it is named by its own low byte. -/
theorem zeroPage_iff_exists_dataAddr (addr : Addr) : addr.toNat ≤ 0x00FF ↔ ∃ zp, dataAddr zp = addr := by
  constructor
  · intro h
    refine ⟨addr.setWidth 8, BitVec.eq_of_toNat_eq ?_⟩
    rw [dataAddr_toNat, BitVec.toNat_setWidth]
    omega
  · rintro ⟨zp, rfl⟩
    have hzp := zp.isLt
    rw [dataAddr_toNat]
    omega

/-- Settles O57: reading and writing go through `dataAddr` alone, so X and Y play no part. -/
theorem zeroPageOperandNamesItsAddress : Obligations.ZeroPageOperandNamesItsAddress := by
  refine ⟨fun zp => ⟨dataAddr_eq_setWidth zp, dataAddr_toNat zp⟩, zeroPage_iff_exists_dataAddr, ?_⟩
  intro s zp v x y
  rw [← dataAddr_eq_setWidth]
  exact ⟨rfl, rfl, rfl⟩

end Sys2Proof.Machine

/-! # Proofs of the family 30_encoding: the opcode table -/

namespace Sys2Proof

open Sys2Proof.Stated

/-! ## The 26 rows (R105) -/

/-- The round trip of every instruction, from the lemmas per instruction. -/
theorem Laws.RoundTrip.statement_all : ∀ i : Instr, Laws.RoundTrip.Statement i
  | .brk => brk
  | .asl zp => asl zp
  | .clc => clc
  | .and zp => and zp
  | .sec => sec
  | .cli => cli
  | .adc zp => adc zp
  | .sei => sei
  | .sta zp => sta zp
  | .dey => dey
  | .txa => txa
  | .bcc rel => bcc rel
  | .tya => tya
  | .ldy zp => ldy zp
  | .ldx zp => ldx zp
  | .tay => tay
  | .lda imm => lda imm
  | .tax => tax
  | .clv => clv
  | .iny => iny
  | .dex => dex
  | .cld => cld
  | .inc zp => inc zp
  | .inx => inx
  | .nop => nop
  | .sed => sed

/-- Decoding an instruction's bytes consumes exactly those bytes (R101, R111). -/
@[simp] theorem decode_encode_append (i : Instr) (rest : List Byte) : decode (encode i ++ rest) = .ok (i, rest) :=
  (Laws.RoundTrip.statement_all i).1 rest

/-- An instruction's own format and bytes are a row of R105; a row written out in full is this one, computed. -/
theorem encodedAs_mode_encode (i : Instr) : EncodedAs i i.mode (encode i) :=
  ⟨rfl, rfl, decode_encode_append i⟩

/-! ## The bytes without a row (R106) -/

/-- The first byte the encoder writes is one of the 26. -/
theorem mem_mappedOpcodes_of_encode {i : Instr} {op : Byte} {rest : List Byte} (h : encode i = op :: rest) :
    op ∈ mappedOpcodes := by
  cases i
  all_goals
    obtain ⟨rfl, -⟩ := List.cons.inj h
    decide

/-- A byte outside the 26 has no row: a row's instruction is encoded with the row's opcode. -/
theorem opcodeEntry_eq_none_of_not_mem {op : Byte} (hop : op ∉ mappedOpcodes) : opcodeEntry op = none := by
  cases hentry : opcodeEntry op with
  | none => rfl
  | some entry =>
    refine absurd ?_ hop
    cases entry with
    | noOperand i => exact mem_mappedOpcodes_of_encode (opcodeEntry_noOperand hentry).1
    | withOperand build => exact mem_mappedOpcodes_of_encode (opcodeEntry_withOperand (b := 0x00) hentry).1

/-- Settles O1: each row is the instruction's own format and bytes, and a byte outside the rows has no entry. -/
theorem opcodeTableDecodes : Obligations.OpcodeTableDecodes := by
  constructor
  · intro b
    exact ⟨encodedAs_mode_encode .brk, encodedAs_mode_encode (.asl b), encodedAs_mode_encode .clc,
      encodedAs_mode_encode (.and b), encodedAs_mode_encode .sec, encodedAs_mode_encode .cli,
      encodedAs_mode_encode (.adc b), encodedAs_mode_encode .sei, encodedAs_mode_encode (.sta b),
      encodedAs_mode_encode .dey, encodedAs_mode_encode .txa, encodedAs_mode_encode (.bcc b),
      encodedAs_mode_encode .tya, encodedAs_mode_encode (.ldy b), encodedAs_mode_encode (.ldx b),
      encodedAs_mode_encode .tay, encodedAs_mode_encode (.lda b), encodedAs_mode_encode .tax,
      encodedAs_mode_encode .clv, encodedAs_mode_encode .iny, encodedAs_mode_encode .dex,
      encodedAs_mode_encode .cld, encodedAs_mode_encode (.inc b), encodedAs_mode_encode .inx,
      encodedAs_mode_encode .nop, encodedAs_mode_encode .sed⟩
  · intro op rest hop
    exact decode_of_none rest (opcodeEntry_eq_none_of_not_mem hop)

end Sys2Proof

/-! # Proofs of the family 41_load_store_transfer: LDA and the transfers -/

namespace Sys2Proof.Machine

open Sys2Proof.Stated

/-! ## Writing a register and describing what was written (R14, R49) -/

/-- `set_zn` is the statements' own description of P. -/
theorem setZN_eq_withZN (p : Status) (v : Byte) : p.setZN v = withZN p v := by
  rw [Status.setZN_eq, withZN, BitVec.msb_eq_getLsbD_last]

theorem setA_setZN (s : State) (v : Byte) : (s.setA v).setZN v = { s with a := v, p := withZN s.p v } := by
  rw [State.setZN, setZN_eq_withZN, State.setA]

theorem setX_setZN (s : State) (v : Byte) : (s.setX v).setZN v = { s with x := v, p := withZN s.p v } := by
  rw [State.setZN, setZN_eq_withZN, State.setX]

theorem setY_setZN (s : State) (v : Byte) : (s.setY v).setZN v = { s with y := v, p := withZN s.p v } := by
  rw [State.setZN, setZN_eq_withZN, State.setY]

/-! ## LDA (R160) and the transfers (R164 to R167) -/

theorem exec_lda (imm : Byte) (s : State) :
    exec (.lda imm) s = .next { s with a := imm, p := withZN s.p imm } :=
  congrArg Host.Outcome.next (setA_setZN s imm)

theorem exec_tax (s : State) : exec .tax s = .next { s with x := s.a, p := withZN s.p s.a } :=
  congrArg Host.Outcome.next (setX_setZN s s.a)

theorem exec_tay (s : State) : exec .tay s = .next { s with y := s.a, p := withZN s.p s.a } :=
  congrArg Host.Outcome.next (setY_setZN s s.a)

theorem exec_txa (s : State) : exec .txa s = .next { s with a := s.x, p := withZN s.p s.x } :=
  congrArg Host.Outcome.next (setA_setZN s s.x)

theorem exec_tya (s : State) : exec .tya s = .next { s with a := s.y, p := withZN s.p s.y } :=
  congrArg Host.Outcome.next (setA_setZN s s.y)

/-- Settles O35: LDA's row is its own format and bytes, 0xA5 is none of the 26 opcodes, and `exec_lda` is the state. -/
theorem ldaResult : Obligations.LdaResult := by
  intro imm s
  have hA5 : (0xA5 : Byte) ∉ mappedOpcodes := by decide
  exact ⟨encodedAs_mode_encode (.lda imm), fun rest => decode_of_none rest (opcodeEntry_eq_none_of_not_mem hA5),
    exec_lda imm s⟩

/-- Settles O38, from each transfer's own format and bytes and its meaning. -/
theorem transferResults : Obligations.TransferResults :=
  ⟨encodedAs_mode_encode .tax, encodedAs_mode_encode .tay, encodedAs_mode_encode .txa, encodedAs_mode_encode .tya,
    fun s => ⟨exec_tax s, exec_tay s, exec_txa s, exec_tya s⟩⟩

end Sys2Proof.Machine

/-! # Proofs of the family 42_inc_dec: INX, INY, DEX and DEY -/

namespace Sys2Proof.Machine

open Sys2Proof.Stated

/-! ## The register increments and decrements (R190 to R193)

`increment` and `decrement` are byte arithmetic, so the wrap is the result's own and no carry is written. -/

theorem exec_inx (s : State) : exec .inx s = .next { s with x := s.x + 1#8, p := withZN s.p (s.x + 1#8) } :=
  congrArg Host.Outcome.next (setX_setZN s (increment s.x))

theorem exec_iny (s : State) : exec .iny s = .next { s with y := s.y + 1#8, p := withZN s.p (s.y + 1#8) } :=
  congrArg Host.Outcome.next (setY_setZN s (increment s.y))

theorem exec_dex (s : State) : exec .dex s = .next { s with x := s.x - 1#8, p := withZN s.p (s.x - 1#8) } :=
  congrArg Host.Outcome.next (setX_setZN s (decrement s.x))

theorem exec_dey (s : State) : exec .dey s = .next { s with y := s.y - 1#8, p := withZN s.p (s.y - 1#8) } :=
  congrArg Host.Outcome.next (setY_setZN s (decrement s.y))

/-- Settles O39, from each instruction's own format and bytes and its meaning. -/
theorem registerStepResults : Obligations.RegisterStepResults :=
  ⟨encodedAs_mode_encode .inx, encodedAs_mode_encode .iny, encodedAs_mode_encode .dex, encodedAs_mode_encode .dey,
    fun s => ⟨exec_inx s, exec_iny s, exec_dex s, exec_dey s⟩⟩

end Sys2Proof.Machine

/-! # Proofs of the family 43_flag: CLC, CLD, CLI, CLV, SEC, SED and SEI -/

namespace Sys2Proof.Machine

/-! ## Writing one flag and describing the whole state (R48) -/

theorem setFlag_c (s : State) (b : Bool) : s.setFlag .c b = { s with p := { s.p with c := b } } := rfl

theorem setFlag_d (s : State) (b : Bool) : s.setFlag .d b = { s with p := { s.p with d := b } } := rfl

theorem setFlag_i (s : State) (b : Bool) : s.setFlag .i b = { s with p := { s.p with i := b } } := rfl

theorem setFlag_v (s : State) (b : Bool) : s.setFlag .v b = { s with p := { s.p with v := b } } := rfl

/-! ## The flag instructions (R210 to R216) -/

theorem exec_clc (s : State) : exec .clc s = .next { s with p := { s.p with c := false } } :=
  congrArg Host.Outcome.next (setFlag_c s false)

theorem exec_cld (s : State) : exec .cld s = .next { s with p := { s.p with d := false } } :=
  congrArg Host.Outcome.next (setFlag_d s false)

theorem exec_cli (s : State) : exec .cli s = .next { s with p := { s.p with i := false } } :=
  congrArg Host.Outcome.next (setFlag_i s false)

theorem exec_clv (s : State) : exec .clv s = .next { s with p := { s.p with v := false } } :=
  congrArg Host.Outcome.next (setFlag_v s false)

theorem exec_sec (s : State) : exec .sec s = .next { s with p := { s.p with c := true } } :=
  congrArg Host.Outcome.next (setFlag_c s true)

theorem exec_sed (s : State) : exec .sed s = .next { s with p := { s.p with d := true } } :=
  congrArg Host.Outcome.next (setFlag_d s true)

theorem exec_sei (s : State) : exec .sei s = .next { s with p := { s.p with i := true } } :=
  congrArg Host.Outcome.next (setFlag_i s true)

/-- Settles O41, from each instruction's own format and bytes and its meaning. -/
theorem flagInstructionResults : Obligations.FlagInstructionResults :=
  ⟨encodedAs_mode_encode .clc, encodedAs_mode_encode .cld, encodedAs_mode_encode .cli, encodedAs_mode_encode .clv,
    encodedAs_mode_encode .sec, encodedAs_mode_encode .sed, encodedAs_mode_encode .sei,
    fun s => ⟨exec_clc s, exec_cld s, exec_cli s, exec_clv s, exec_sec s, exec_sed s, exec_sei s⟩⟩

end Sys2Proof.Machine

/-! # Proofs of the family 44_control: NOP, and that no other opcode behaves so -/

namespace Sys2Proof.Machine

open Sys2Proof.Stated

/-! ## The PC an instruction leaves (R123) -/

/-- An instruction on the byte its operand names, which leaves PC alone or records a fault. -/
theorem pc_kept_of_read_or_raise {s t : State} {zp : Byte} {u : Byte → State}
    (h : (∃ m, s.readZp zp = .ok m ∧ t = u m) ∨ ∃ r, t = s.raise r) (hu : ∀ m, (u m).pc = s.pc) : t.pc = s.pc := by
  obtain ⟨m, -, rfl⟩ | ⟨r, rfl⟩ := h
  · exact hu m
  · rfl

theorem execAdc_pc {zp : Byte} {s t : State} (h : execAdc zp s = .next t) : t.pc = s.pc := by
  obtain ⟨-, m, -, rfl⟩ | ⟨-, -, m, sum, -, -, rfl⟩ | ⟨r, rfl⟩ := execAdc_cases h
  · rfl
  · rfl
  · rfl

/-- Only BCC writes PC in execution. -/
theorem exec_pc {i : Instr} {s t : State} (hi : ∀ rel, i ≠ .bcc rel) (h : exec i s = .next t) : t.pc = s.pc := by
  cases i
  case bcc rel => exact absurd rfl (hi rel)
  case adc => exact execAdc_pc h
  case asl => exact pc_kept_of_read_or_raise (execAsl_cases h) fun _ => rfl
  case and => exact pc_kept_of_read_or_raise (execAnd_cases h) fun _ => rfl
  case ldx => exact pc_kept_of_read_or_raise (execLdx_cases h) fun _ => rfl
  case ldy => exact pc_kept_of_read_or_raise (execLdy_cases h) fun _ => rfl
  case inc => exact pc_kept_of_read_or_raise (execInc_cases h) fun _ => rfl
  case sta =>
    obtain rfl | ⟨r, rfl⟩ := execSta_cases h
    · rfl
    · rfl
  all_goals
    obtain rfl := Host.Outcome.next.inj h
    rfl

/-! ## Behaving as a NOP (R231) -/

/-- Execution, which begins with PC past the whole instruction, ends with PC one past its opcode and all else
unchanged. -/
def EndsAsNop (i : Instr) (s : State) : Prop :=
  exec i s = .next { s with pc := s.pc - BitVec.ofNat 16 (i.length - 1) }

/-- A one-byte instruction that ends as a NOP changes nothing. -/
theorem not_endsAsNop_of_one_byte {i : Instr} {s t : State} (hlen : i.length = 1) (h : exec i s = .next t)
    (hne : t ≠ s) : ¬ EndsAsNop i s := by
  intro hnop
  rw [EndsAsNop, hlen, h] at hnop
  exact hne ((Host.Outcome.next.inj hnop).trans (by simp))

/-- A two-byte instruction that ends as a NOP takes PC back over its operand. -/
theorem not_endsAsNop_of_two_bytes {i : Instr} {s : State} (hlen : i.length = 2)
    (hpc : ∀ t, exec i s = .next t → t.pc = s.pc) : ¬ EndsAsNop i s := by
  intro hnop
  have hback : s.pc - BitVec.ofNat 16 (i.length - 1) = s.pc := hpc _ hnop
  rw [hlen] at hback
  bv_omega

/-- With Carry clear, the reset state's polarity does not take the branch. -/
theorem exec_bcc_reset (rel : Byte) : exec (.bcc rel) State.reset = .next State.reset := rfl

/-- At reset (all registers 0, Z clear) BRK records its fault and eleven one-byte instructions change a register or a
flag; the other four need a flag set or cleared first. The two-byte ones end with PC two past their opcode; for BCC
that takes a state in which it is not taken. -/
theorem exists_running_not_endsAsNop {i : Instr} (hi : i ≠ .nop) : ∃ s : State, s.Running ∧ ¬ EndsAsNop i s := by
  cases i
  case nop => exact absurd rfl hi
  case bcc rel =>
    refine ⟨State.reset, rfl, not_endsAsNop_of_two_bytes rfl fun t h => ?_⟩
    rw [← Host.Outcome.next.inj ((exec_bcc_reset rel).symm.trans h)]
  case asl | and | adc | sta | ldy | ldx | lda | inc =>
    exact ⟨State.reset, rfl, not_endsAsNop_of_two_bytes rfl fun _ => exec_pc (by simp)⟩
  case brk | sec | sed | tax | tay | txa | tya | inx | iny | dex | dey | cli =>
    exact ⟨State.reset, rfl, not_endsAsNop_of_one_byte rfl rfl (by decide)⟩
  case clc => exact ⟨State.reset.setFlag .c true, rfl, not_endsAsNop_of_one_byte rfl (exec_clc _) (by decide)⟩
  case cld => exact ⟨State.reset.setFlag .d true, rfl, not_endsAsNop_of_one_byte rfl (exec_cld _) (by decide)⟩
  case clv => exact ⟨State.reset.setFlag .v true, rfl, not_endsAsNop_of_one_byte rfl (exec_clv _) (by decide)⟩
  case sei => exact ⟨State.reset.setFlag .i false, rfl, not_endsAsNop_of_one_byte rfl (exec_sei _) (by decide)⟩

/-- An Illegal byte stops a running core (R233). -/
theorem execIllegal_ne_next_self {op : Byte} {s : State} (hs : s.Running) : execIllegal op s ≠ .next s := by
  intro h
  have hraised : s.raise (.illegalOpcode op) = s := Host.Outcome.next.inj h
  rw [State.Running, ← hraised, State.raise_halt] at hs
  cases hs

/-! ## The tick of a one-byte instruction (R120) -/

/-- A running core whose opcode byte is in range and has a row without an operand executes that row's instruction with
PC one further. -/
theorem step_of_noOperand {s : State} {i : Instr} (hs : s.Running) (hpc : s.pc.toNat < s.cfg.romSize)
    (hentry : opcodeEntry (romByte s s.pc) = some (.noOperand i)) : step s = exec i s.advancePc := by
  have hop : s.progRead s.pc = .ok (romByte s s.pc) := progRead_ok.mpr ⟨hpc, rfl⟩
  have hfetch : fetch s = .decoded (.instr i) s.advancePc := by simp only [fetch, hop, decodeAt, hentry]
  exact step_of_instr hs hfetch

theorem exec_nop (s : State) : exec .nop s = .next s := rfl

/-- Settles O43: NOP's tick is the PC advance of its fetch, each other instruction has a state that tells it from NOP,
and an Illegal byte leaves no core running. -/
theorem nopResult : Obligations.NopResult := by
  refine ⟨encodedAs_mode_encode .nop, exec_nop, ?_, fun _ => exists_running_not_endsAsNop,
    fun _ _ => execIllegal_ne_next_self⟩
  intro s hs hpc hop
  exact step_of_noOperand hs hpc (by rw [hop]; rfl)

end Sys2Proof.Machine

/-! # Proofs of the family other, part 1: decoding, fetching, and the step that follows a fetch -/

namespace Sys2Proof

open Sys2Proof.Stated

/-! ## Decoding and encoding are inverse (R100, R101, R105) -/

/-- What decodes to an instruction is the opcode byte of a row and, where the row has one, its operand byte. -/
theorem decode_ok_cases {bytes rest : List Byte} {i : Instr} (h : decode bytes = .ok (i, rest)) :
    ∃ op, (opcodeEntry op = some (.noOperand i) ∧ bytes = op :: rest) ∨
      ∃ build b, opcodeEntry op = some (.withOperand build) ∧ i = build b ∧ bytes = op :: b :: rest := by
  match bytes with
  | [] => cases h
  | op :: tail =>
    refine ⟨op, ?_⟩
    match hentry : opcodeEntry op with
    | none =>
      rw [decode_of_none tail hentry] at h
      cases h
    | some (.noOperand j) =>
      rw [decode_of_noOperand tail hentry] at h
      cases h
      exact .inl ⟨rfl, rfl⟩
    | some (.withOperand build) =>
      match tail with
      | [] =>
        rw [decode_of_missing hentry] at h
        cases h
      | b :: rest' =>
        rw [decode_of_withOperand b rest' hentry] at h
        cases h
        exact .inr ⟨build, b, rfl, rfl, rfl⟩

/-- What decodes to an instruction begins with its encoding: both accounts are one row of the opcode table. -/
theorem eq_encode_append_of_decode {bytes rest : List Byte} {i : Instr} (h : decode bytes = .ok (i, rest)) :
    bytes = encode i ++ rest := by
  obtain ⟨op, ⟨hentry, rfl⟩ | ⟨build, b, hentry, rfl, rfl⟩⟩ := decode_ok_cases h
  · rw [(opcodeEntry_noOperand hentry).1, List.singleton_append]
  · rw [(opcodeEntry_withOperand hentry).1, List.cons_append, List.singleton_append]

/-- Settles O2: each direction is one of the two accounts of the opcode table read against the other. -/
theorem decodeInvertsEncode : Obligations.DecodeInvertsEncode := by
  intro bytes rest i
  constructor
  · exact eq_encode_append_of_decode
  · rintro rfl
    exact decode_encode_append i rest

/-! ## The Illegal bytes (R106, R107) -/

/-- Decoding answers Illegal exactly for a byte without a row. -/
theorem decode_eq_illegal_iff {op : Byte} {rest : List Byte} :
    decode (op :: rest) = .error (.illegalOpcode op) ↔ opcodeEntry op = none := by
  constructor
  · intro h
    match hentry : opcodeEntry op with
    | none => rfl
    | some (.noOperand i) =>
      rw [decode_of_noOperand rest hentry] at h
      cases h
    | some (.withOperand build) =>
      match rest with
      | [] =>
        rw [decode_of_missing hentry] at h
        cases h
      | b :: rest' =>
        rw [decode_of_withOperand b rest' hentry] at h
        cases h
  · exact decode_of_none rest

/-- The bytes without a row are those outside the 26 (R105, R106). -/
theorem opcodeEntry_eq_none_iff {op : Byte} : opcodeEntry op = none ↔ op ∉ mappedOpcodes := by
  constructor
  · intro hnone hmem
    have hrow : ∀ op ∈ mappedOpcodes, (opcodeEntry op).isSome = true := by decide
    simpa [hnone] using hrow op hmem
  · exact opcodeEntry_eq_none_of_not_mem

/-- The ranges of R107 are the complement of the 26 bytes of R105: a finite check, by the two halves of the byte. -/
theorem not_mem_mappedOpcodes_iff (op : Byte) :
    op ∉ mappedOpcodes ↔ ∃ range ∈ illegalRanges, range.1 ≤ op.toNat ∧ op.toNat ≤ range.2 := by
  have hbytes : ∀ hi < 16, ∀ lo < 16, BitVec.ofNat 8 (16 * hi + lo) ∉ mappedOpcodes ↔
      ∃ range ∈ illegalRanges, range.1 ≤ 16 * hi + lo ∧ 16 * hi + lo ≤ range.2 := by decide
  have hop := hbytes (op.toNat / 16) (by have := op.isLt; omega) (op.toNat % 16) (Nat.mod_lt _ (by decide))
  rwa [Nat.div_add_mod, BitVec.ofNat_toNat, BitVec.setWidth_eq] at hop

/-- Settles O3: an Illegal byte is one without a row, so one outside the 26, so one in a range. -/
theorem illegalBytesAreTheListedRanges : Obligations.IllegalBytesAreTheListedRanges := by
  intro op rest
  rw [decode_eq_illegal_iff, opcodeEntry_eq_none_iff, not_mem_mappedOpcodes_iff]

/-! ## Lengths (R101, R108) -/

/-- An encoding is the opcode byte and the operand the instruction carries, if any. -/
theorem encode_eq_cons_operand (i : Instr) : ∃ op, encode i = op :: i.operand.toList := by
  cases i <;> exact ⟨_, rfl⟩

/-- The row of an encoding's first byte decides how long the instruction is. -/
theorem length_eq_opcodeLength {i : Instr} {op : Byte} {rest : List Byte} (h : encode i = op :: rest) :
    i.length = opcodeLength op := by
  have hdecode : decode (op :: rest) = .ok (i, []) := by
    rw [← h]
    simpa using decode_encode_append i []
  obtain ⟨op', ⟨hentry, hbytes⟩ | ⟨build, b, hentry, rfl, hbytes⟩⟩ := decode_ok_cases hdecode
  all_goals obtain ⟨rfl, -⟩ := List.cons.inj hbytes
  · rw [length_noOperand hentry, opcodeLength_of_noOperand hentry]
  · rw [length_withOperand hentry, opcodeLength_of_withOperand hentry]

/-- The length of every opcode byte, one without a row included. -/
theorem opcodeLength_eq (op : Byte) : opcodeLength op = if op ∈ twoByteOpcodes then 2 else 1 := by
  by_cases hop : op ∈ mappedOpcodes
  · have hrows : ∀ op ∈ mappedOpcodes, opcodeLength op = if op ∈ twoByteOpcodes then 2 else 1 := by decide
    exact hrows op hop
  · have htwo : ∀ op ∈ twoByteOpcodes, op ∈ mappedOpcodes := by decide
    rw [opcodeLength_of_illegal (opcodeEntry_eq_none_iff.mpr hop), if_neg fun h => hop (htwo op h)]

theorem encode_length (i : Instr) : (encode i).length = i.length :=
  (Laws.RoundTrip.statement_all i).2.1

end Sys2Proof

namespace Sys2Proof.Machine

open Sys2Proof.Stated

/-! ## What a fetch that decoded has read (R110, R111, R123) -/

theorem advancePc_eq (s : State) : s.advancePc = { s with pc := s.pc + 1#16 } := rfl

theorem advancePc_advancePc_eq (s : State) : s.advancePc.advancePc = { s with pc := s.pc + 2#16 } := by
  rw [advancePc_eq, advancePc_eq, BitVec.add_assoc]
  rfl

/-- The two ways a fetch decodes an instruction: its row has no operand, or has one in range of ROM. -/
theorem fetch_instr_cases {s t : State} {i : Instr} (h : fetch s = .decoded (.instr i) t) :
    (opcodeEntry (romByte s s.pc) = some (.noOperand i) ∧ t = s.advancePc) ∨
    ∃ build, opcodeEntry (romByte s s.pc) = some (.withOperand build) ∧
      i = build (romByte s (s.pc + 1#16)) ∧ t = s.advancePc.advancePc := by
  obtain ⟨-, hf⟩ | ⟨-, ⟨-, hf⟩ | ⟨j, hentry, hf⟩ | ⟨build, hentry, ⟨-, hf⟩ | ⟨-, hf⟩⟩⟩ := fetch_cases s
  all_goals
    rw [hf] at h
    cases h
  · exact .inl ⟨hentry, rfl⟩
  · exact .inr ⟨build, hentry, rfl, rfl⟩

/-- A fetch decodes Illegal at a byte without a row, and reads that byte alone. -/
theorem fetch_illegal {s t : State} {op : Byte} (h : fetch s = .decoded (.illegal op) t) :
    opcodeEntry (romByte s s.pc) = none ∧ op = romByte s s.pc ∧ t = s.advancePc := by
  obtain ⟨-, hf⟩ | ⟨-, ⟨hentry, hf⟩ | ⟨j, -, hf⟩ | ⟨build, -, ⟨-, hf⟩ | ⟨-, hf⟩⟩⟩ := fetch_cases s
  all_goals
    rw [hf] at h
    cases h
  exact ⟨hentry, rfl, rfl⟩

/-- Settles O4, from what a fetch that decoded has read. -/
theorem fetchConsumesExactlyTheInstruction : Obligations.FetchConsumesExactlyTheInstruction := by
  constructor
  · intro s t i h
    obtain ⟨hentry, rfl⟩ | ⟨build, hentry, rfl, rfl⟩ := fetch_instr_cases h
    · rw [length_noOperand hentry, (opcodeEntry_noOperand hentry).1]
      exact ⟨rfl, by simp⟩
    · rw [length_withOperand hentry, (opcodeEntry_withOperand hentry).1]
      exact ⟨advancePc_advancePc_eq s, by simp [List.range_succ]⟩
  · intro s t op h
    obtain ⟨-, hop, rfl⟩ := fetch_illegal h
    exact ⟨rfl, hop⟩

/-- Whatever a fetch decodes, PC has advanced by the length of the opcode byte (R108). -/
theorem fetch_decoded_pc {s t : State} {d : Decoded} (h : fetch s = .decoded d t) :
    t.pc = s.pc + BitVec.ofNat 16 (opcodeLength (romByte s s.pc)) := by
  cases d with
  | illegal op =>
    obtain ⟨hentry, -, rfl⟩ := fetch_illegal h
    rw [opcodeLength_of_illegal hentry]
    rfl
  | instr i =>
    obtain ⟨hentry, rfl⟩ | ⟨build, hentry, -, rfl⟩ := fetch_instr_cases h
    · rw [opcodeLength_of_noOperand hentry]
      rfl
    · rw [opcodeLength_of_withOperand hentry, advancePc_advancePc_eq]

/-- Settles O59, from the lengths of the rows and of what a fetch read. -/
theorem lengthIsDecidedByTheOpcode : Obligations.LengthIsDecidedByTheOpcode := by
  refine ⟨opcodeLength_eq, ?_, fun s t d => fetch_decoded_pc⟩
  intro i op rest h
  rw [encode_length]
  exact ⟨length_eq_opcodeLength h, length_eq_opcodeLength h⟩

/-! ## The step that follows each fetch (R120) -/

/-- The opcode fetch in range hands its byte to the decoder. -/
theorem fetch_of_lt {s : State} (hpc : s.pc.toNat < s.cfg.romSize) :
    fetch s = decodeAt (romByte s s.pc) s.advancePc := by
  have hop : s.progRead s.pc = .ok (romByte s s.pc) := progRead_ok.mpr ⟨hpc, rfl⟩
  rw [fetch, hop]

/-- An opcode fetch out of range leaves PC (D25). -/
theorem step_of_opcode_out_of_range {s : State} (hs : s.Running) (hpc : s.cfg.romSize ≤ s.pc.toNat) :
    step s = .next (recording s (.memoryOutOfRange .program s.pc)) := by
  have hop : s.progRead s.pc = .error (.memoryOutOfRange .program s.pc) := progRead_error.mpr ⟨hpc, rfl⟩
  exact step_of_raised hs (by rw [fetch, hop]; rfl)

/-- An operand fetch out of range leaves PC one past the opcode (R255). -/
theorem step_of_operand_out_of_range {s : State} {build : Byte → Instr} (hs : s.Running)
    (hpc : s.pc.toNat < s.cfg.romSize) (hentry : opcodeEntry (romByte s s.pc) = some (.withOperand build))
    (hpc' : s.cfg.romSize ≤ (s.pc + 1#16).toNat) :
    step s = .next (recording { s with pc := s.pc + 1#16 } (.memoryOutOfRange .program (s.pc + 1#16))) := by
  have hb : s.advancePc.progRead s.advancePc.pc = .error (.memoryOutOfRange .program (s.pc + 1#16)) :=
    progRead_error.mpr ⟨hpc', rfl⟩
  exact step_of_raised hs (by simp only [fetch_of_lt hpc, decodeAt, hentry, hb]; rfl)

/-- A byte without a row runs the Illegal variant with PC one past it (R106). -/
theorem step_of_no_row {s : State} (hs : s.Running) (hpc : s.pc.toNat < s.cfg.romSize)
    (hentry : opcodeEntry (romByte s s.pc) = none) : step s = execIllegal (romByte s s.pc) s.advancePc :=
  step_of_illegal hs (by simp only [fetch_of_lt hpc, decodeAt, hentry])

/-- A two-byte instruction in range of ROM runs with PC past its operand (R110, R123). -/
theorem step_of_withOperand {s : State} {build : Byte → Instr} (hs : s.Running) (hpc : s.pc.toNat < s.cfg.romSize)
    (hentry : opcodeEntry (romByte s s.pc) = some (.withOperand build))
    (hpc' : (s.pc + 1#16).toNat < s.cfg.romSize) :
    step s = exec (build (romByte s (s.pc + 1#16))) { s with pc := s.pc + 2#16 } := by
  have hb : s.advancePc.progRead s.advancePc.pc = .ok (romByte s (s.pc + 1#16)) := progRead_ok.mpr ⟨hpc', rfl⟩
  rw [← advancePc_advancePc_eq]
  exact step_of_instr hs (by simp only [fetch_of_lt hpc, decodeAt, hentry, hb])

/-- The row of the opcode byte, where two bytes decode to an instruction. -/
theorem opcodeEntry_of_decode_pair {op b : Byte} {i : Instr} {rest : List Byte} (h : decode [op, b] = .ok (i, rest)) :
    (opcodeEntry op = some (.noOperand i) ∧ i.length = 1) ∨
    ∃ build, opcodeEntry op = some (.withOperand build) ∧ i = build b ∧ i.length = 2 := by
  obtain ⟨op', ⟨hentry, hbytes⟩ | ⟨build, b', hentry, rfl, hbytes⟩⟩ := decode_ok_cases h
  · obtain ⟨rfl, -⟩ := List.cons.inj hbytes
    exact .inl ⟨hentry, length_noOperand hentry⟩
  · obtain ⟨rfl, hb⟩ := List.cons.inj hbytes
    obtain ⟨rfl, -⟩ := List.cons.inj hb
    exact .inr ⟨build, hentry, rfl, length_withOperand hentry⟩

/-- Settles O5: the row of the opcode byte says how many bytes the fetch reads. -/
theorem stepRunsTheDecodedInstruction : Obligations.StepRunsTheDecodedInstruction := by
  intro s i rest hs hdecode hrange
  obtain ⟨hentry, hlen⟩ | ⟨build, hentry, rfl, hlen⟩ := opcodeEntry_of_decode_pair hdecode
  · rw [hlen] at hrange ⊢
    exact step_of_noOperand hs (by simpa using hrange 0 (by decide)) hentry
  · rw [hlen] at hrange ⊢
    exact step_of_withOperand hs (by simpa using hrange 0 (by decide)) hentry (hrange 1 (by decide))

/-- Settles O6: a byte outside the 26 has no row, and the Illegal variant records it. -/
theorem illegalOpcodeIsRecorded : Obligations.IllegalOpcodeIsRecorded := by
  intro s hs hpc hop
  exact step_of_no_row hs hpc (opcodeEntry_eq_none_iff.mpr hop)

/-- Settles O7: the opcode fetch fails first; the operand fetch is made for a two-byte row alone. -/
theorem fetchOutOfRangeIsRecorded : Obligations.FetchOutOfRangeIsRecorded := by
  refine ⟨fun s => step_of_opcode_out_of_range, ?_⟩
  intro s i rest hs hpc hdecode hlen hpc'
  obtain ⟨-, hone⟩ | ⟨build, hentry, -, -⟩ := opcodeEntry_of_decode_pair hdecode
  · omega
  · exact step_of_operand_out_of_range hs hpc hentry hpc'

/-! ## Branches (R13, R104, R230) -/

theorem branchTarget_eq_signExtend (pc : Addr) (rel : Byte) : branchTarget pc rel = pc + rel.signExtend 16 := by
  rw [branchTarget, sext16_eq_toInt, BitVec.ofInt_add, BitVec.ofInt_natCast, BitVec.ofNat_toNat, BitVec.setWidth_eq,
    BitVec.signExtend]

/-- Settles O27, reading the offset as a two's complement number. -/
theorem branchOffsetIsSigned : Obligations.BranchOffsetIsSigned := by
  intro pc rel
  have hlow : -128 ≤ rel.toInt := BitVec.le_toInt rel
  have hhigh : rel.toInt < 128 := BitVec.toInt_lt
  refine ⟨?_, ?_, ?_, branchTarget_eq_signExtend pc rel⟩
  · rw [sext16, BitVec.msb_eq_getLsbD_last]
    cases rel.getLsbD (8 - 1) <;> rfl
  · rwa [sext16_eq_toInt]
  · rw [sext16_eq_toInt]
    omega

/-- A BCC is taken by Carry set or by Carry clear, as the polarity says (R230, D3). -/
theorem branchTaken_iff (polarity : BccPolarity) (carry : Bool) : branchTaken polarity carry = true ↔
    (polarity = .carrySet ∧ carry = true) ∨ (polarity = .carryClear ∧ carry = false) := by
  cases polarity <;> simp [branchTaken]

/-- Settles O42: a BCC sets PC to the branch target or leaves the state. -/
theorem bccResult : Obligations.BccResult := by
  intro rel s
  simp only [← branchTaken_iff, ← branchTarget_eq_signExtend]
  show execBcc rel s = _
  rw [execBcc]
  by_cases htaken : branchTaken s.cfg.bccTakenOn s.p.c = true
  · rw [if_pos htaken, if_pos htaken, State.setPc]
  · rw [if_neg htaken, if_neg htaken]

/-- Settles O12: the tick of a BCC in range is its execution with PC two further. -/
theorem branchIsRelativeToTheNextInstruction : Obligations.BranchIsRelativeToTheNextInstruction := by
  intro s hs hop hpc hpc'
  have hentry : opcodeEntry (romByte s s.pc) = some (.withOperand .bcc) := by
    rw [hop]
    rfl
  rw [step_of_withOperand hs hpc hentry hpc', bccResult]

end Sys2Proof.Machine

/-! # Proofs of the family other, part 2: bytes, memory accesses, and the results of single instructions -/

namespace Sys2Proof

/-! ## The packed byte (R39) -/

/-- A bit of a byte is a digit of its number. -/
theorem getLsbD_eq_of_digit {v : Byte} {k : Nat} {bit : Bool} (h : v.toNat / 2 ^ k % 2 = bit.toNat) :
    v.getLsbD k = bit := by
  rw [BitVec.getLsbD, Nat.testBit_eq_decide_div_mod_eq, h]
  cases bit <;> rfl

/-- Settles O24: the sum is below 256, so none of it is lost in the narrowing, and a flag's bit is its digit of the
sum. -/
theorem packedStatusLayout : Obligations.PackedStatusLayout := by
  intro p
  have hc := p.c.toNat_le
  have hz := p.z.toNat_le
  have hi := p.i.toNat_le
  have hd := p.d.toNat_le
  have hb := p.b.toNat_le
  have hu := p.u.toNat_le
  have hv := p.v.toNat_le
  have hn := p.n.toNat_le
  have hsum : p.pack.toNat = p.n.toNat * 128 + p.v.toNat * 64 + p.u.toNat * 32 + p.b.toNat * 16 + p.d.toNat * 8 +
      p.i.toNat * 4 + p.z.toNat * 2 + p.c.toNat := by
    rw [Status.pack, BitVec.toNat_ofNat]
    omega
  refine ⟨hsum, ?_, ?_, ?_, ?_, ?_, ?_, ?_, ?_⟩
  all_goals
    refine getLsbD_eq_of_digit ?_
    rw [hsum]
    omega

end Sys2Proof

namespace Sys2Proof.Machine

open Sys2Proof.Stated

/-! ## Exact results narrowed to a byte (R13, R36) -/

@[simp] theorem narrow_byte (v : Byte) : narrow v.toNat = v := by
  simp [narrow]

theorem narrow_add (m n : Nat) : narrow (m + n) = narrow m + narrow n := BitVec.ofNat_add m n

theorem narrow_and (v w : Byte) : narrow (v.toNat &&& w.toNat) = v &&& w := by
  rw [← BitVec.toNat_and, narrow_byte]

theorem narrow_mul_two (v : Byte) : narrow (v.toNat * 2) = v <<< 1 := by
  apply BitVec.eq_of_toNat_eq
  rw [narrow_toNat, BitVec.toNat_shiftLeft, Nat.shiftLeft_eq]

/-- The carry out of a doubled byte is its bit 7 (R143). -/
theorem carryOut_mul_two (v : Byte) : carryOut (v.toNat * 2) = v.msb := by
  rw [carryOut, BitVec.msb_eq_decide, decide_eq_decide]
  omega

/-- The sign of a byte against its two readings, as a number and in two's complement. -/
theorem msb_toInt_cases (v : Byte) :
    (v.msb = false ∧ v.toNat < 128 ∧ v.toInt = v.toNat) ∨
    (v.msb = true ∧ 128 ≤ v.toNat ∧ v.toInt = (v.toNat : Int) - 256) := by
  rw [BitVec.msb_eq_decide, BitVec.toInt_eq_toNat_cond, decide_eq_false_iff_not, decide_eq_true_eq]
  split <;> omega

theorem overflow8_eq (a m r : Byte) : overflow8 a m r = ((a.msb ^^ r.msb) && (m.msb ^^ r.msb)) := by
  rw [overflow8, BitVec.msb_and, BitVec.msb_xor, BitVec.msb_xor]

/-- Settles O25, by the signs of the two operands and of the 8-bit sum: overflow is both operands of one sign and the
sum of the other. -/
theorem overflowIsSignedOverflow : Obligations.OverflowIsSignedOverflow := by
  intro a m carry
  have hsum := narrow_toNat (a.toNat + m.toNat + carry.toNat)
  have hcarry := carry.toNat_le
  have ha := a.isLt
  have hm := m.isLt
  rw [overflow8_eq]
  obtain ⟨hr, hrNat, -⟩ | ⟨hr, hrNat, -⟩ := msb_toInt_cases (narrow (a.toNat + m.toNat + carry.toNat)) <;>
  obtain ⟨hamsb, haNat, haInt⟩ | ⟨hamsb, haNat, haInt⟩ := msb_toInt_cases a <;>
  obtain ⟨hmmsb, hmNat, hmInt⟩ | ⟨hmmsb, hmNat, hmInt⟩ := msb_toInt_cases m
  all_goals
    simp only [hr, hamsb, hmmsb, haInt, hmInt, Bool.xor_false, Bool.xor_true, Bool.not_false, Bool.not_true,
      Bool.and_self, Bool.and_false, Bool.false_and, Bool.false_eq_true, false_iff, true_iff]
    omega

/-! ## The access primitives (R74 to R77) -/

/-- Settles O28: each primitive tests the address against the size of its own space. -/
theorem accessesAreRangeChecked : Obligations.AccessesAreRangeChecked := by
  intro s addr v
  exact ⟨fun h => progRead_ok.mpr ⟨h, rfl⟩, fun h => progRead_error.mpr ⟨h, rfl⟩,
    fun h => ⟨memRead_ok.mpr ⟨h, rfl⟩, _, memWrite_ok.mpr ⟨h, rfl⟩⟩,
    fun h => ⟨memRead_error.mpr ⟨h, rfl⟩, memWrite_error.mpr ⟨h, rfl⟩⟩⟩

/-- Settles O29: the write is one of `Memory.write`, read back by `Memory.read_write`. -/
theorem dataWriteThenRead : Obligations.DataWriteThenRead := by
  intro s t addr v wf h
  obtain ⟨haddr, rfl⟩ := memWrite_ok.mp h
  refine ⟨fun b => ?_, fun b => rfl, rfl⟩
  rw [State.memRead, State.memRead, Memory.read_write wf]
  by_cases hb : b = addr
  · rw [if_pos hb, hb, if_pos haddr, if_pos rfl]
  · rw [if_neg hb, if_neg fun hnat => hb (BitVec.eq_of_toNat_eq hnat)]

/-- Settles O30: the codes are the definition's own. -/
theorem faultCodes : Obligations.FaultCodes := fun _ _ _ => ⟨rfl, rfl, rfl, rfl⟩

/-- Settles O58: the table is the definition of `signalsOf`, row by row. -/
theorem controlSignalRows : Obligations.ControlSignalRows :=
  ⟨fun _ _ => ⟨rfl, rfl, rfl, rfl, rfl, rfl, rfl, rfl, rfl, rfl, rfl, rfl, rfl, rfl, rfl, rfl, rfl, rfl, rfl, rfl, rfl,
    rfl, rfl, rfl, rfl, rfl, rfl⟩, fun _ _ => rfl⟩

/-! ## The operand byte in and out of range of RAM (R75, R76, R103) -/

theorem readZp_of_inRange {s : State} {zp : Byte} (h : InRange s zp) : s.readZp zp = .ok (dataByte s zp) :=
  memRead_ok.mpr ⟨h, rfl⟩

theorem readZp_of_not_inRange {s : State} {zp : Byte} (h : ¬ InRange s zp) :
    s.readZp zp = .error (.memoryOutOfRange .data (dataAddr zp)) :=
  memRead_error.mpr ⟨Nat.not_lt.mp h, rfl⟩

theorem writeZp_of_inRange {s : State} {zp v : Byte} (h : InRange s zp) :
    s.writeZp zp v = .ok { s with ram := s.ram.write (dataAddr zp).toNat v } :=
  memWrite_ok.mpr ⟨h, rfl⟩

theorem writeZp_of_not_inRange {s : State} {zp v : Byte} (h : ¬ InRange s zp) :
    s.writeZp zp v = .error (.memoryOutOfRange .data (dataAddr zp)) :=
  memWrite_error.mpr ⟨Nat.not_lt.mp h, rfl⟩

/-- An instruction that begins with the read of its operand goes on with the data byte. -/
theorem conclude_read_of_inRange {s : State} {zp : Byte} {rest : Byte → Except Fault State} (h : InRange s zp) :
    s.conclude (s.readZp zp >>= rest) = s.conclude (rest (dataByte s zp)) := by
  rw [readZp_of_inRange h]
  rfl

/-- Out of range it records the fault of the read. -/
theorem conclude_read_of_not_inRange {s : State} {zp : Byte} {rest : Byte → Except Fault State} (h : ¬ InRange s zp) :
    s.conclude (s.readZp zp >>= rest) = .next (recording s (.memoryOutOfRange .data (dataAddr zp))) := by
  rw [readZp_of_not_inRange h]
  rfl

/-- A read-modify-write instruction in range; the state it prepares for the store has the parameters of `s`. -/
theorem conclude_readModifyWrite_of_inRange {s : State} {zp : Byte} {prepared : Byte → State} {modify : Byte → Byte}
    (h : InRange s zp) (hprepared : ∀ m, (prepared m).cfg = s.cfg) :
    s.conclude (s.readZp zp >>= fun m =>
        (prepared m).writeZp zp (modify m) >>= fun stored => pure (stored.setZN (modify m))) =
      .next (State.setZN
        { prepared (dataByte s zp) with
          ram := (prepared (dataByte s zp)).ram.write (dataAddr zp).toNat (modify (dataByte s zp)) }
        (modify (dataByte s zp))) := by
  have hw : InRange (prepared (dataByte s zp)) zp := by rwa [InRange, hprepared]
  rw [conclude_read_of_inRange h, writeZp_of_inRange hw]
  rfl

/-- A byte stored at the operand's address is the data byte afterwards, and no other byte changed. -/
theorem stored_byte {s t : State} {zp v : Byte} (wf : s.ram.wf = true)
    (ht : t.ram = s.ram.write (dataAddr zp).toNat v) : dataByte t zp = v ∧ OtherBytesKept s t zp := by
  constructor
  · rw [dataByte, ht, Memory.read_write wf, if_pos rfl]
  · intro a ha
    rw [ht, Memory.read_write_of_ne _ ha]

/-! ## The instructions on a data byte, in range -/

/-- Settles O31: AND reads the data byte and writes A, Z and N. -/
theorem andResult : Obligations.AndResult := by
  intro zp s h
  exact (conclude_read_of_inRange h).trans (congrArg Host.Outcome.next (setA_setZN s _))

/-- Settles O36: LDX and LDY pass the data byte on. -/
theorem ldxLdyResult : Obligations.LdxLdyResult := by
  intro zp s h
  exact ⟨(conclude_read_of_inRange h).trans (congrArg Host.Outcome.next (setX_setZN s _)),
    (conclude_read_of_inRange h).trans (congrArg Host.Outcome.next (setY_setZN s _))⟩

theorem exec_adc_documented {s : State} (zp : Byte) (hv : s.cfg.adcVariant = .documented) :
    exec (.adc zp) s = s.conclude (adcDocumented zp s) := by
  show execAdc zp s = _
  rw [execAdc, hv]

theorem exec_adc_nmos {s : State} (zp : Byte) (hv : s.cfg.adcVariant = .nmos6502Binary) :
    exec (.adc zp) s = s.conclude (adcNmos zp s) := by
  show execAdc zp s = _
  rw [execAdc, hv]

/-- Settles O32: the narrowed exact sum is the 8-bit sum, and C is its carry out. -/
theorem adcDocumentedResult : Obligations.AdcDocumentedResult := by
  intro zp s hv h
  rw [exec_adc_documented zp hv, adcDocumented, conclude_read_of_inRange h, conclude_pure, setA_setZN, narrow_add,
    narrow_byte, narrow_byte]
  rfl

/-- Settles O33: decimal mode stops ADC before its access; otherwise the exact sum takes the carry in. -/
theorem adcNmosResult : Obligations.AdcNmosResult := by
  intro zp s hv
  rw [exec_adc_nmos zp hv, adcNmos]
  constructor
  · intro hd
    rw [if_pos hd]
    rfl
  · intro hd h
    rw [if_neg (by simp [hd]), conclude_read_of_inRange h, conclude_pure, setA_setZN, narrow_add, narrow_add,
      narrow_byte, narrow_byte]
    rfl

/-- Settles O34: the doubled byte, narrowed, is the byte shifted left. -/
theorem aslResult : Obligations.AslResult := by
  intro zp s wf h
  refine ⟨_, conclude_readModifyWrite_of_inRange (prepared := fun m => s.setFlag .c m.msb)
    (modify := fun m => narrow (m.toNat * 2)) h fun _ => rfl, ?_⟩
  rw [← narrow_mul_two]
  refine and_assoc.mp ⟨stored_byte wf rfl, ?_⟩
  rw [State.setZN, setZN_eq_withZN, ← BitVec.msb_eq_getLsbD_last]
  rfl

/-- Settles O40: the byte is incremented in place. -/
theorem incResult : Obligations.IncResult := by
  intro zp s wf h
  refine ⟨_, conclude_readModifyWrite_of_inRange (prepared := fun _ => s) (modify := increment) h fun _ => rfl, ?_⟩
  refine and_assoc.mp ⟨stored_byte wf rfl, ?_⟩
  rw [State.setZN, setZN_eq_withZN]
  rfl

/-- Settles O37: STA stores A and does nothing else. -/
theorem staResult : Obligations.StaResult := by
  intro zp s wf h
  have hexec : exec (.sta zp) s = .next { s with ram := s.ram.write (dataAddr zp).toNat s.a } :=
    congrArg s.conclude (writeZp_of_inRange h)
  exact ⟨_, hexec, and_assoc.mp ⟨stored_byte wf rfl, rfl⟩⟩

/-! ## The instructions that record a fault (R232, R255) -/

/-- Settles O44: BRK's own format and byte, and its fault. -/
theorem brkResult : Obligations.BrkResult := ⟨encodedAs_mode_encode .brk, fun _ => rfl⟩

/-- Settles O45: STA fails at its store, the others at the read they begin with. -/
theorem dataOutOfRangeIsRecorded : Obligations.DataOutOfRangeIsRecorded := by
  intro zp s h
  constructor
  · intro i hi
    simp only [List.mem_cons, List.not_mem_nil, or_false] at hi
    obtain rfl | rfl | rfl | rfl | rfl | rfl := hi
    · exact conclude_read_of_not_inRange h
    · exact conclude_read_of_not_inRange h
    · exact conclude_read_of_not_inRange h
    · exact conclude_read_of_not_inRange h
    · exact congrArg s.conclude (writeZp_of_not_inRange h)
    · exact conclude_read_of_not_inRange h
  · intro hreached
    match hv : s.cfg.adcVariant with
    | .documented =>
      rw [exec_adc_documented zp hv]
      exact conclude_read_of_not_inRange h
    | .nmos6502Binary =>
      have hd : s.p.d = false := hreached.resolve_left (by rw [hv]; decide)
      rw [exec_adc_nmos zp hv, adcNmos, if_neg (by simp [hd])]
      exact conclude_read_of_not_inRange h

end Sys2Proof.Machine

/-! # Proofs of the family other, part 3: the datapath of the control-signal record -/

namespace Sys2Proof.Machine

open Sys2Proof.Stated

/-! ## The datapath in its parts (R109) -/

/-- The values of the record's sources, with `m` the data byte. -/
def ControlSignals.values (sig : ControlSignals) (s : State) (m : Byte) : List Nat :=
  sig.sources.map (sourceValue s (sig.operand.getD 0) m)

/-- The exact result of the record's ALU operation. -/
def ControlSignals.exact (sig : ControlSignals) (s : State) (m : Byte) : Nat :=
  aluExact (sig.operand.getD 0) sig.alu (sig.values s m)

/-- P after the flags the record lists. -/
def ControlSignals.flags (sig : ControlSignals) (s : State) (m : Byte) : Status :=
  sig.flagsWritten.foldl (fun p f => p.set f (flagValue sig.alu s m (sig.exact s m) f)) s.p

/-- What the record computes from the data byte: its flags written, then its destination. -/
def ControlSignals.result (sig : ControlSignals) (s : State) (m : Byte) : Except Fault State :=
  writeDestination sig { s with p := sig.flags s m } (sig.values s m) (sig.exact s m)

theorem raisedNow_of_raises_none {sig : ControlSignals} {s : State} (h : sig.raises = none) :
    raisedNow sig s = none := by
  rw [raisedNow, h, ite_self]

theorem datapath_of_raised {sig : ControlSignals} {s : State} {r : Fault} (h : raisedNow sig s = some r) :
    datapath sig s = .next (s.raise r) := by
  rw [datapath, h]
  rfl

theorem datapath_of_no_read {sig : ControlSignals} {s : State} (h : raisedNow sig s = none)
    (hread : sig.dataRead = false) : datapath sig s = s.conclude (sig.result s 0) := by
  rw [datapath, h]
  simp only [hread]
  rfl

theorem datapath_of_read {sig : ControlSignals} {s : State} (h : raisedNow sig s = none)
    (hread : sig.dataRead = true) :
    datapath sig s = s.conclude (s.readZp (sig.operand.getD 0) >>= sig.result s) := by
  rw [datapath, h]
  simp only [hread]
  rfl

/-! ## Every meaning is its record's datapath -/

theorem narrow_increment (v : Byte) : narrow (v.toNat + 1) = increment v := by
  rw [narrow_add, narrow_byte]
  rfl

theorem narrow_decrement (v : Byte) : narrow (v.toNat + 255) = decrement v := by
  rw [narrow_add, narrow_byte, decrement, BitVec.sub_eq_add_neg]
  rfl

/-- A row without a data access that raises nothing. -/
theorem next_eq_datapath {sig : ControlSignals} {s t : State} (hraises : sig.raises = none)
    (hread : sig.dataRead = false) (h : sig.result s 0 = .ok t) : .next t = datapath sig s := by
  rw [datapath_of_no_read (raisedNow_of_raises_none hraises) hread, h]
  rfl

/-- A row that reads its operand and raises nothing now. -/
theorem conclude_read_eq_datapath {sig : ControlSignals} {s : State} {meaning : Byte → Except Fault State}
    (h : raisedNow sig s = none) (hread : sig.dataRead = true) (hresult : ∀ m, sig.result s m = meaning m) :
    s.conclude (s.readZp (sig.operand.getD 0) >>= meaning) = datapath sig s := by
  rw [datapath_of_read h hread, funext hresult]

/-- `set_zn` writes P alone, so it may as well come before a store. -/
theorem writeZp_bind_setZN (s : State) (zp v w : Byte) :
    (s.writeZp zp v >>= fun stored => pure (stored.setZN w)) = (s.setZN w).writeZp zp v := by
  by_cases h : InRange s zp
  · rw [writeZp_of_inRange h, writeZp_of_inRange (s := s.setZN w) h]
    rfl
  · rw [writeZp_of_not_inRange h, writeZp_of_not_inRange (s := s.setZN w) h]
    rfl

/-- ADC's row raises exactly where its meaning stops before the read: on D = 1 under Nmos6502Binary (R141, R254). -/
theorem execAdc_eq_datapath (zp : Byte) (s : State) : execAdc zp s = datapath (signalsAdc zp s.cfg.adcVariant) s := by
  unfold execAdc
  cases s.cfg.adcVariant with
  | documented =>
    exact conclude_read_eq_datapath (sig := signalsAdc zp .documented) (raisedNow_of_raises_none rfl) rfl fun _ => rfl
  | nmos6502Binary =>
    by_cases hd : s.p.d = true
    · have hraised : raisedNow (signalsAdc zp .nmos6502Binary) s = some (.decimalModeUnmodelled 0x65) :=
        if_pos (.inr hd)
      rw [datapath_of_raised hraised, adcNmos, if_pos hd]
      rfl
    · have hraised : raisedNow (signalsAdc zp .nmos6502Binary) s = none :=
        if_neg (by simp [signalsAdc, signalsZp, hd])
      rw [adcNmos, if_neg hd]
      refine conclude_read_eq_datapath hraised rfl fun m => ?_
      rw [Nat.add_assoc]
      rfl

/-- A meaning and its row agree once the row's exact result, narrowed, is the meaning's byte. -/
theorem exec_eq_datapath (i : Instr) (s : State) : exec i s = datapath (signalsOf s.cfg.adcVariant i) s := by
  cases i
  case brk => rfl
  case adc zp => exact execAdc_eq_datapath zp s
  case clc | sec | cli | sei | clv | cld | sed | nop => exact next_eq_datapath rfl rfl rfl
  case lda imm => exact next_eq_datapath rfl rfl (congrArg (fun v => Except.ok ((s.setA v).setZN v)) (narrow_byte imm))
  case tax => exact next_eq_datapath rfl rfl (congrArg (fun v => Except.ok ((s.setX v).setZN v)) (narrow_byte s.a))
  case tay => exact next_eq_datapath rfl rfl (congrArg (fun v => Except.ok ((s.setY v).setZN v)) (narrow_byte s.a))
  case txa => exact next_eq_datapath rfl rfl (congrArg (fun v => Except.ok ((s.setA v).setZN v)) (narrow_byte s.x))
  case tya => exact next_eq_datapath rfl rfl (congrArg (fun v => Except.ok ((s.setA v).setZN v)) (narrow_byte s.y))
  case inx => exact next_eq_datapath rfl rfl (congrArg (fun v => Except.ok ((s.setX v).setZN v)) (narrow_increment s.x))
  case iny => exact next_eq_datapath rfl rfl (congrArg (fun v => Except.ok ((s.setY v).setZN v)) (narrow_increment s.y))
  case dex => exact next_eq_datapath rfl rfl (congrArg (fun v => Except.ok ((s.setX v).setZN v)) (narrow_decrement s.x))
  case dey => exact next_eq_datapath rfl rfl (congrArg (fun v => Except.ok ((s.setY v).setZN v)) (narrow_decrement s.y))
  case ldx zp =>
    exact conclude_read_eq_datapath (sig := signalsOf s.cfg.adcVariant (.ldx zp)) (raisedNow_of_raises_none rfl) rfl
      fun m => congrArg (fun v => Except.ok ((s.setX v).setZN v)) (narrow_byte m)
  case ldy zp =>
    exact conclude_read_eq_datapath (sig := signalsOf s.cfg.adcVariant (.ldy zp)) (raisedNow_of_raises_none rfl) rfl
      fun m => congrArg (fun v => Except.ok ((s.setY v).setZN v)) (narrow_byte m)
  case and zp =>
    exact conclude_read_eq_datapath (sig := signalsOf s.cfg.adcVariant (.and zp)) (raisedNow_of_raises_none rfl) rfl
      fun m => congrArg (fun v => Except.ok ((s.setA v).setZN v)) (narrow_and s.a m)
  case asl zp =>
    refine conclude_read_eq_datapath (sig := signalsOf s.cfg.adcVariant (.asl zp)) (raisedNow_of_raises_none rfl) rfl
      fun m => ?_
    rw [← carryOut_mul_two]
    exact (writeZp_bind_setZN (s.setFlag .c (carryOut (m.toNat * 2))) zp _ _).symm
  case inc zp =>
    refine conclude_read_eq_datapath (sig := signalsOf s.cfg.adcVariant (.inc zp)) (raisedNow_of_raises_none rfl) rfl
      fun m => ?_
    rw [← narrow_increment]
    exact (writeZp_bind_setZN _ _ _ _).symm
  case sta zp =>
    rw [datapath_of_no_read (raisedNow_of_raises_none rfl) rfl]
    exact congrArg (fun v => s.conclude (s.writeZp zp v)) (narrow_byte s.a).symm
  case bcc rel =>
    refine next_eq_datapath rfl rfl ?_
    have hcarry : decide (s.p.c.toNat = 1) = s.p.c := by cases s.p.c <;> rfl
    rw [branchTarget_eq_ofNat, ← hcarry]
    exact congrArg Except.ok (if_congr (and_iff_right rfl) rfl rfl)

/-- Settles O49: each instruction's row, and the Illegal row, which only raises. -/
theorem meaningsMatchControlSignals : Obligations.MeaningsMatchControlSignals :=
  ⟨exec_eq_datapath, fun _ _ => rfl⟩

end Sys2Proof.Machine

/-! # Proofs of the family other, part 4: what an instruction changes, the faults a tick records, and the invariant -/

namespace Sys2Proof.Machine

open Sys2Proof.Stated

/-! ## What the datapath can answer -/

theorem writeZp_eq_ok {s t : State} {zp v : Byte} (h : s.writeZp zp v = .ok t) :
    InRange s zp ∧ t = { s with ram := s.ram.write (dataAddr zp).toNat v } := memWrite_ok.mp h

theorem writeZp_eq_error {s : State} {zp v : Byte} {r : Fault} (h : s.writeZp zp v = .error r) :
    ¬ InRange s zp ∧ r = .memoryOutOfRange .data (dataAddr zp) :=
  (memWrite_error.mp h).imp_left Nat.not_lt.mpr

/-- A register takes the narrowed result, PC an address, and memory the byte at the operand's address, in range. -/
theorem writeDestination_ok {sig : ControlSignals} {s t : State} {values : List Nat} {exact : Nat}
    (h : writeDestination sig s values exact = .ok t) :
    (sig.destination = some .a ∧ t = s.setA (narrow exact)) ∨
    (sig.destination = some .x ∧ t = s.setX (narrow exact)) ∨
    (sig.destination = some .y ∧ t = s.setY (narrow exact)) ∨
    (sig.destination = some .mem ∧ InRange s (sig.operand.getD 0) ∧
      t = { s with ram := s.ram.write (dataAddr (sig.operand.getD 0)).toNat (narrow exact) }) ∨
    (sig.destination = some .pc ∧ ∃ q, t = s.setPc q) ∨ t = s := by
  unfold writeDestination at h
  split at h
  case h_1 hd => exact .inl ⟨hd, (Except.ok.inj h).symm⟩
  case h_2 hd => exact .inr (.inl ⟨hd, (Except.ok.inj h).symm⟩)
  case h_3 hd => exact .inr (.inr (.inl ⟨hd, (Except.ok.inj h).symm⟩))
  case h_4 hd =>
    split at h
    · exact .inr (.inr (.inr (.inl ⟨hd, writeZp_eq_ok h⟩)))
    · exact .inr (.inr (.inr (.inr (.inr (Except.ok.inj h).symm))))
  case h_5 hd =>
    split at h
    · exact .inr (.inr (.inr (.inr (.inl ⟨hd, _, (Except.ok.inj h).symm⟩))))
    · exact .inr (.inr (.inr (.inr (.inr (Except.ok.inj h).symm))))
  all_goals exact .inr (.inr (.inr (.inr (.inr (Except.ok.inj h).symm))))

/-- The fault of the record's data access (R75, R76). -/
def ControlSignals.dataFault (sig : ControlSignals) : Fault :=
  .memoryOutOfRange .data (dataAddr (sig.operand.getD 0))

/-- Only a store can fail. -/
theorem writeDestination_error {sig : ControlSignals} {s : State} {values : List Nat} {exact : Nat} {r : Fault}
    (h : writeDestination sig s values exact = .error r) :
    sig.dataWrite = true ∧ ¬ InRange s (sig.operand.getD 0) ∧ r = sig.dataFault := by
  unfold writeDestination at h
  split at h
  case h_4 =>
    split at h
    case isTrue hwrite => exact ⟨hwrite, writeZp_eq_error h⟩
    case isFalse => cases h
  all_goals cases h

/-- Where neither the record nor its read faults, the record's result for some data byte is the answer. -/
theorem datapath_eq_conclude_result {sig : ControlSignals} {s : State} (hraised : raisedNow sig s = none)
    (hrange : sig.dataRead = true → InRange s (sig.operand.getD 0)) :
    ∃ m, datapath sig s = s.conclude (sig.result s m) := by
  match hread : sig.dataRead with
  | false => exact ⟨0, datapath_of_no_read hraised hread⟩
  | true => exact ⟨_, (datapath_of_read hraised hread).trans (conclude_read_of_inRange (hrange hread))⟩

/-- The datapath answers a next state: the fault of its record, that of its data access, or the record's result. -/
theorem datapath_cases (sig : ControlSignals) (s : State) :
    (∃ r, raisedNow sig s = some r ∧ datapath sig s = .next (s.raise r)) ∨
    ((sig.dataRead = true ∨ sig.dataWrite = true) ∧ ¬ InRange s (sig.operand.getD 0) ∧
      datapath sig s = .next (s.raise sig.dataFault)) ∨
    ∃ m t, sig.result s m = .ok t ∧ datapath sig s = .next t := by
  match hraised : raisedNow sig s with
  | some r => exact .inl ⟨r, rfl, datapath_of_raised hraised⟩
  | none =>
    refine .inr ?_
    by_cases hread : sig.dataRead = true ∧ ¬ InRange s (sig.operand.getD 0)
    · obtain ⟨hread, hrange⟩ := hread
      exact .inl ⟨.inl hread, hrange, (datapath_of_read hraised hread).trans (conclude_read_of_not_inRange hrange)⟩
    · obtain ⟨m, hm⟩ := datapath_eq_conclude_result hraised (by simpa using hread)
      match hresult : sig.result s m with
      | .ok t => exact .inr ⟨m, t, hresult, by rw [hm, hresult, conclude_ok]⟩
      | .error r =>
        obtain ⟨hwrite, hrange, rfl⟩ := writeDestination_error hresult
        exact .inl ⟨.inr hwrite, hrange, by rw [hm, hresult, conclude_error]⟩

/-! ## What an instruction can answer: its row, read into the datapath -/

theorem signalsOf_operand (variant : AdcVariant) (i : Instr) : (signalsOf variant i).operand = i.operand := by
  cases i
  case adc => cases variant <;> rfl
  all_goals rfl

/-- The faults of the table's rows (R232, R254). -/
theorem raisedNow_signalsOf {variant : AdcVariant} {i : Instr} {s : State} {r : Fault}
    (h : raisedNow (signalsOf variant i) s = some r) :
    (i = .brk ∧ r = .unimplemented 0x00) ∨
    ((∃ zp, i = .adc zp) ∧ variant = .nmos6502Binary ∧ s.p.d = true ∧ r = .decimalModeUnmodelled 0x65) := by
  obtain ⟨hcond, hraises⟩ := Option.ite_none_right_eq_some.mp h
  cases i
  case brk => exact .inl ⟨rfl, (Option.some.inj hraises).symm⟩
  case adc zp =>
    cases variant with
    | documented => cases hraises
    | nmos6502Binary =>
      have hd : s.p.d = true := hcond.resolve_left nofun
      exact .inr ⟨⟨zp, rfl⟩, rfl, hd, (Option.some.inj hraises).symm⟩
  all_goals cases hraises

/-- The rows with a data access are those of the seven instructions (R72). -/
theorem reachesRam_of_dataAccess {variant : AdcVariant} {i : Instr}
    (h : (signalsOf variant i).dataRead = true ∨ (signalsOf variant i).dataWrite = true) : ReachesRam i := by
  cases i
  case asl zp | and zp | adc zp | sta zp | ldy zp | ldx zp | inc zp => exact ⟨zp, by simp⟩
  all_goals
    obtain h | h := h
    · cases h
    · cases h

theorem operand_of_reachesRam {i : Instr} (h : ReachesRam i) : ∃ zp, i.operand = some zp := by
  obtain ⟨zp, rfl | rfl | rfl | rfl | rfl | rfl | rfl⟩ := h
  all_goals exact ⟨zp, rfl⟩

/-- The rows whose destination is memory. -/
theorem row_of_mem_destination {variant : AdcVariant} {i : Instr}
    (h : (signalsOf variant i).destination = some .mem) :
    ∃ zp, (i = .sta zp ∨ i = .asl zp ∨ i = .inc zp) ∧ i.operand = some zp ∧
      (signalsOf variant i).dataWrite = true := by
  cases i
  case sta zp => exact ⟨zp, .inl rfl, rfl, rfl⟩
  case asl zp => exact ⟨zp, .inr (.inl rfl), rfl, rfl⟩
  case inc zp => exact ⟨zp, .inr (.inr rfl), rfl, rfl⟩
  case adc => cases variant <;> cases h
  all_goals cases h

/-- A fault recorded by an instruction: BRK's, that of a data access out of range, or ADC's in decimal mode. -/
def InstrFault (i : Instr) (s : State) (r : Fault) : Prop :=
  (i = .brk ∧ r = .unimplemented 0x00) ∨
  (∃ zp, i.operand = some zp ∧ ¬ InRange s zp ∧ r = .memoryOutOfRange .data (dataAddr zp)) ∨
  ((∃ zp, i = .adc zp) ∧ s.cfg.adcVariant = .nmos6502Binary ∧ s.p.d = true ∧ r = .decimalModeUnmodelled 0x65)

/-- Execution answers a next state: a fault recorded in the state it began in, or the result of the row. -/
theorem exec_cases (i : Instr) (s : State) :
    (∃ r, InstrFault i s r ∧ exec i s = .next (s.raise r)) ∨
    ∃ m t, (signalsOf s.cfg.adcVariant i).result s m = .ok t ∧ exec i s = .next t := by
  rw [exec_eq_datapath]
  obtain ⟨r, hr, h⟩ | ⟨haccess, hrange, h⟩ | hresult := datapath_cases (signalsOf s.cfg.adcVariant i) s
  · exact .inl ⟨r, (raisedNow_signalsOf hr).imp_right .inr, h⟩
  · obtain ⟨zp, hzp⟩ := operand_of_reachesRam (reachesRam_of_dataAccess haccess)
    rw [ControlSignals.dataFault, signalsOf_operand, hzp] at h
    rw [signalsOf_operand, hzp] at hrange
    exact .inl ⟨_, .inr (.inl ⟨zp, hzp, hrange, rfl⟩), h⟩
  · exact .inr hresult

/-- The same, of a next state that is known. -/
theorem exec_next_cases {i : Instr} {s t : State} (h : exec i s = .next t) :
    (∃ r, InstrFault i s r ∧ t = s.raise r) ∨ ∃ m, (signalsOf s.cfg.adcVariant i).result s m = .ok t := by
  obtain ⟨r, hr, h'⟩ | ⟨m, t', hresult, h'⟩ := exec_cases i s
  · exact .inl ⟨r, hr, Host.Outcome.next.inj (h.symm.trans h')⟩
  · exact .inr ⟨m, hresult.trans (congrArg Except.ok (Host.Outcome.next.inj (h'.symm.trans h)))⟩

/-! ## What an instruction leaves unchanged -/

/-- Settles O47: a fault leaves all else, and a result reaches its destination alone. -/
theorem onlyTheDestinationChanges : Obligations.OnlyTheDestinationChanges := by
  intro i s t h
  have hpc : (∀ rel, i ≠ .bcc rel) → t.pc = s.pc := fun hi => exec_pc hi h
  obtain ⟨r, -, rfl⟩ | ⟨m, hresult⟩ := exec_next_cases h
  · exact ⟨fun _ => rfl, fun _ => rfl, fun _ => rfl, hpc, rfl, rfl, rfl, .inr ⟨r, rfl⟩⟩
  · obtain ⟨hd, rfl⟩ | ⟨hd, rfl⟩ | ⟨hd, rfl⟩ | ⟨-, -, rfl⟩ | ⟨-, q, rfl⟩ | rfl := writeDestination_ok hresult
    · exact ⟨fun hne => absurd hd hne, fun _ => rfl, fun _ => rfl, hpc, rfl, rfl, rfl, .inl rfl⟩
    · exact ⟨fun _ => rfl, fun hne => absurd hd hne, fun _ => rfl, hpc, rfl, rfl, rfl, .inl rfl⟩
    · exact ⟨fun _ => rfl, fun _ => rfl, fun hne => absurd hd hne, hpc, rfl, rfl, rfl, .inl rfl⟩
    all_goals exact ⟨fun _ => rfl, fun _ => rfl, fun _ => rfl, hpc, rfl, rfl, rfl, .inl rfl⟩

/-- RAM after an instruction: as it was, or with one byte stored in range by STA, ASL or INC. -/
theorem exec_ram {i : Instr} {s t : State} (h : exec i s = .next t) :
    t.ram = s.ram ∨ ∃ zp v, (i = .sta zp ∨ i = .asl zp ∨ i = .inc zp) ∧ InRange s zp ∧
      t.ram = s.ram.write (dataAddr zp).toNat v := by
  obtain ⟨r, -, rfl⟩ | ⟨m, hresult⟩ := exec_next_cases h
  · exact .inl rfl
  · obtain ⟨-, rfl⟩ | ⟨-, rfl⟩ | ⟨-, rfl⟩ | ⟨hd, hrange, rfl⟩ | ⟨-, q, rfl⟩ | rfl := writeDestination_ok hresult
    · exact .inl rfl
    · exact .inl rfl
    · exact .inl rfl
    · obtain ⟨zp, hi, hzp, -⟩ := row_of_mem_destination hd
      rw [signalsOf_operand, hzp] at hrange ⊢
      exact .inr ⟨zp, _, hi, hrange, rfl⟩
    · exact .inl rfl
    · exact .inl rfl

/-- Settles O48: RAM is as it was, or one byte was stored at the operand's address. -/
theorem onlyTheStoredByteChanges : Obligations.OnlyTheStoredByteChanges := by
  intro i s t h
  obtain hram | ⟨zp, v, hi, -, hram⟩ := exec_ram h
  · exact ⟨fun zp _ => ⟨dataAddr_toNat zp, fun a _ => by rw [hram]⟩, fun _ a => by rw [hram]⟩
  · constructor
    · intro zp' hi'
      have hzp : zp' = zp := by
        obtain rfl | rfl | rfl := hi' <;> simpa using hi
      rw [hzp]
      exact ⟨dataAddr_toNat zp, fun a ha => by rw [hram, Memory.read_write_of_ne _ ha]⟩
    · intro hother
      exact absurd hi (by simpa only [not_or] using hother zp)

/-- The byte a result leaves at its destination is the exact result, narrowed. -/
theorem resultByte_of_result {variant : AdcVariant} {i : Instr} {s t : State} {m r : Byte} (wf : s.ram.wf = true)
    (h : (signalsOf variant i).result s m = .ok t) (hr : resultByte variant i t = some r) :
    r = narrow ((signalsOf variant i).exact s m) := by
  unfold ControlSignals.result writeDestination at h
  unfold resultByte at hr
  match hd : (signalsOf variant i).destination with
  | some .a | some .x | some .y =>
    rw [hd] at h hr
    obtain rfl := Except.ok.inj h
    exact (Option.some.inj hr).symm
  | some .mem =>
    obtain ⟨zp, -, hzp, hwrite⟩ := row_of_mem_destination hd
    simp only [hd, hwrite, signalsOf_operand, hzp] at h hr
    obtain ⟨-, rfl⟩ := writeZp_eq_ok h
    exact (Option.some.inj hr).symm.trans (stored_byte wf rfl).1
  | some .pc | some .imm | some (.flag _) | none =>
    rw [hd] at hr
    cases hr

/-- Every row with a result byte, but STA's, passes that byte to `set_zn`. -/
theorem flags_of_resultByte {variant : AdcVariant} {i : Instr} {t : State} {r : Byte} (s : State) (m : Byte)
    (hr : resultByte variant i t = some r) (hi : ∀ zp, i ≠ .sta zp) :
    ((signalsOf variant i).flags s m).z = decide (narrow ((signalsOf variant i).exact s m) = 0#8) ∧
      ((signalsOf variant i).flags s m).n = (narrow ((signalsOf variant i).exact s m)).msb := by
  cases i
  case sta zp => exact absurd rfl (hi zp)
  case adc => cases variant <;> exact ⟨rfl, rfl⟩
  case brk | clc | sec | cli | sei | clv | cld | sed | bcc | nop => cases hr
  all_goals exact ⟨rfl, rfl⟩

/-- The destination comes after the flags and touches neither P nor the run status. -/
theorem writeDestination_p_halt {sig : ControlSignals} {s t : State} {values : List Nat} {exact : Nat}
    (h : writeDestination sig s values exact = .ok t) : t.p = s.p ∧ t.halt = s.halt := by
  obtain ⟨-, rfl⟩ | ⟨-, rfl⟩ | ⟨-, rfl⟩ | ⟨-, -, rfl⟩ | ⟨-, q, rfl⟩ | rfl := writeDestination_ok h
  all_goals exact ⟨rfl, rfl⟩

/-- Settles O50: the byte at the destination and the byte Z and N describe are one exact result, narrowed. -/
theorem zeroAndNegativeDescribeTheResult : Obligations.ZeroAndNegativeDescribeTheResult := by
  intro i s t r wf h hrunning hr hi
  obtain ⟨reason, -, rfl⟩ | ⟨m, hresult⟩ := exec_next_cases h
  · cases hrunning
  · obtain ⟨hz, hn⟩ := flags_of_resultByte s m hr hi
    rw [(writeDestination_p_halt hresult).1, resultByte_of_result wf hresult hr]
    exact ⟨hz, hn.trans (BitVec.msb_eq_getLsbD_last _)⟩

end Sys2Proof.Machine

/-! # Proofs of the family other, part 5: ticks, the faults they record, construction and the invariant -/

namespace Sys2Proof.Machine

open Sys2Proof.Stated

/-! ## What a tick from a running core does (R120, R255) -/

/-- Where a tick from `s` records a fault: the place of the table of R255, and decimal mode under Nmos6502Binary alone
(R254). -/
def RecordsAt (s : State) (pc : Addr) (r : Fault) : Prop :=
  FaultPlace s pc r ∧ ∀ op, r = .decimalModeUnmodelled op → s.cfg.adcVariant = .nmos6502Binary

/-- A tick from a running core records a fault of its fetch or the Illegal byte it read, or executes the instruction it
fetched; execution begins with nothing but PC changed. -/
theorem step_cases {s : State} (hs : s.Running) :
    (∃ q r, RecordsAt s q r ∧ step s = .next (recording { s with pc := q } r)) ∨
    ∃ i q, fetch s = .decoded (.instr i) { s with pc := q } ∧ step s = exec i { s with pc := q } := by
  match hfetch : fetch s with
  | .decoded (.instr i) t =>
    obtain ⟨ht, -⟩ := fetchConsumesExactlyTheInstruction.1 s t i hfetch
    rw [step_of_instr hs hfetch, ht]
    exact .inr ⟨i, _, rfl, rfl⟩
  | .decoded (.illegal op) t =>
    obtain ⟨hentry, rfl, rfl⟩ := fetch_illegal hfetch
    have hplace : FaultPlace s (s.pc + 1#16) (.illegalOpcode (romByte s s.pc)) :=
      ⟨rfl, rfl, opcodeEntry_eq_none_iff.mp hentry⟩
    exact .inl ⟨_, _, ⟨hplace, nofun⟩, step_of_illegal hs hfetch⟩
  | .raised t =>
    rw [step_of_raised hs hfetch]
    obtain ⟨hpc, hf⟩ | ⟨-, ⟨-, hf⟩ | ⟨j, -, hf⟩ | ⟨build, -, ⟨hpc, hf⟩ | ⟨-, hf⟩⟩⟩ := fetch_cases s
    all_goals
      rw [hf] at hfetch
      cases hfetch
    · have hplace : FaultPlace s s.pc (.memoryOutOfRange .program s.pc) := ⟨rfl, hpc, .inl rfl⟩
      exact .inl ⟨_, _, ⟨hplace, nofun⟩, rfl⟩
    · have hplace : FaultPlace s (s.pc + 1#16) (.memoryOutOfRange .program (s.pc + 1#16)) := ⟨rfl, hpc, .inr rfl⟩
      exact .inl ⟨_, _, ⟨hplace, nofun⟩, rfl⟩

/-- The fault of an instruction that was fetched stands at the place of R255: PC is past its bytes, and those are its
encoding. -/
theorem InstrFault.recordsAt {s t : State} {i : Instr} {r : Fault} (hfetch : fetch s = .decoded (.instr i) t)
    (h : InstrFault i t r) : RecordsAt s t.pc r := by
  obtain ⟨rfl, hbytes⟩ := fetchConsumesExactlyTheInstruction.1 s t i hfetch
  obtain ⟨rfl, rfl⟩ | ⟨zp, hzp, hrange, rfl⟩ | ⟨⟨zp, rfl⟩, hv, hd, rfl⟩ := h
  · obtain ⟨hop, -⟩ := List.cons.inj hbytes
    exact ⟨⟨rfl, rfl, by simpa using hop.symm⟩, nofun⟩
  · obtain ⟨op, henc⟩ := encode_eq_cons_operand i
    have hlen : i.length = 2 := by rw [← encode_length, henc, hzp]; rfl
    rw [henc, hzp, hlen] at hbytes
    obtain ⟨hb, -⟩ := List.cons.inj (List.cons.inj hbytes).2
    rw [hlen]
    exact ⟨⟨rfl, congrArg dataAddr hb, Nat.not_lt.mp hrange⟩, nofun⟩
  · obtain ⟨hop, -⟩ := List.cons.inj hbytes
    exact ⟨⟨rfl, rfl, by simpa using hop.symm, hd⟩, fun _ _ => hv⟩

/-- An instruction that leaves a running core faulted has recorded its fault and done nothing else. -/
theorem exec_records {i : Instr} {s t : State} {reason : Fault} (hs : s.Running) (h : exec i s = .next t)
    (ht : t.halt = .faulted reason) : t = s.raise reason ∧ InstrFault i s reason := by
  obtain ⟨r, hr, rfl⟩ | ⟨m, hresult⟩ := exec_next_cases h
  · obtain rfl := Halt.faulted.inj ht
    exact ⟨rfl, hr⟩
  · rw [(writeDestination_p_halt hresult).2] at ht
    cases hs.symm.trans ht

/-- A tick that leaves a running core faulted has moved PC, recorded its fault and done nothing else. -/
theorem step_records {s t : State} {reason : Fault} (hs : s.Running) (h : step s = .next t)
    (ht : t.halt = .faulted reason) : t = recording { s with pc := t.pc } reason ∧ RecordsAt s t.pc reason := by
  obtain ⟨q, r, hr, hstep⟩ | ⟨i, q, hfetch, hstep⟩ := step_cases hs
  · obtain rfl := Host.Outcome.next.inj (hstep.symm.trans h)
    obtain rfl := Halt.faulted.inj ht
    exact ⟨rfl, hr⟩
  · obtain ⟨rfl, hr⟩ := exec_records (s := { s with pc := q }) hs (hstep.symm.trans h) ht
    have hat : RecordsAt s q reason := hr.recordsAt hfetch
    exact ⟨rfl, hat⟩

/-- Settles O10: the place of a recorded fault, without what it says of the variant. -/
theorem faultsArePrecise : Obligations.FaultsArePrecise := by
  intro s t reason hs h ht
  obtain ⟨hrecording, hplace, -⟩ := step_records hs h ht
  exact ⟨hrecording, hplace⟩

/-- Settles O21: the faults of both spaces name an address beyond the size of the space. -/
theorem fullSizeMemoriesNeverFault : Obligations.FullSizeMemoriesNeverFault := by
  intro s t space addr hram hrom hs h ht
  obtain ⟨-, hplace, -⟩ := step_records hs h ht
  cases space with
  | program =>
    obtain ⟨-, haddr, -⟩ := hplace
    have hlt := addr.isLt
    omega
  | data =>
    obtain ⟨-, rfl, haddr⟩ := hplace
    rw [dataAddr_toNat] at haddr
    have hlt := (romByte s (s.pc + 1#16)).isLt
    omega

/-! ## Ticks and runs (R122, R284, R285) -/

theorem step_of_running {s : State} (hs : s.Running) : ∃ t, step s = .next t := by
  obtain ⟨q, r, -, hstep⟩ | ⟨i, q, -, hstep⟩ := step_cases hs
  · exact ⟨_, hstep⟩
  · obtain ⟨r, -, hexec⟩ | ⟨m, t, -, hexec⟩ := exec_cases i { s with pc := q }
    · exact ⟨_, hstep.trans hexec⟩
    · exact ⟨_, hstep.trans hexec⟩

theorem running_or_faulted (s : State) : s.Running ∨ ∃ r, s.halt = .faulted r := by
  cases hs : s.halt with
  | running => exact .inl hs
  | faulted r => exact .inr ⟨r, rfl⟩

/-- Only a running core steps to a next state. -/
theorem running_of_step {s t : State} (h : step s = .next t) : s.Running := by
  obtain hs | ⟨r, hr⟩ := running_or_faulted s
  · exact hs
  · cases (step_faulted hr).symm.trans h

/-- Settles O9, from the steps of a running and of a faulted core. -/
theorem runningCoreAlwaysSteps : Obligations.RunningCoreAlwaysSteps := by
  refine ⟨fun s => step_of_running, ?_, fun s t h => ⟨tick_of_next h, runTicks_succ_of_next h⟩,
    fun s r => tick_of_fault, fun s => rfl⟩
  intro s r h
  obtain hs | ⟨reason, hr⟩ := running_or_faulted s
  · obtain ⟨t, ht⟩ := step_of_running hs
    cases ht.symm.trans h
  · cases (step_faulted hr).symm.trans h

/-- No number of ticks changes a state that a tick leaves alone. -/
theorem runTicks_of_tick_eq {s : State} (h : tick s = s) (n : Nat) : runTicks n s = s := by
  induction n with
  | zero => rfl
  | succ n ih => rw [runTicks, h, ih]

theorem runTicks_of_faulted {s : State} {r : Fault} (h : s.halt = .faulted r) (n : Nat) : runTicks n s = s :=
  runTicks_of_tick_eq (tick_of_fault (step_faulted h)) n

/-- Settles O8: a faulted core has no step, so no tick changes it. -/
theorem faultedCoreTakesNoStep : Obligations.FaultedCoreTakesNoStep :=
  fun _ _ h => ⟨step_faulted h, runTicks_of_faulted h⟩

theorem runTicks_add (n k : Nat) (s : State) : runTicks (n + k) s = runTicks k (runTicks n s) := by
  induction n generalizing s with
  | zero => rw [Nat.zero_add, runTicks]
  | succ n ih => rw [Nat.succ_add, runTicks, runTicks, ih]

/-- Settles O11: the longer run passes through the state after `n` ticks, and stays there if it is faulted. -/
theorem faultsAreForever : Obligations.FaultsAreForever := by
  intro n k s h
  obtain hs | ⟨r, hr⟩ := running_or_faulted (runTicks n s)
  · exact hs
  · rwa [runCompletes, runTicks_add, runTicks_of_faulted hr] at h

/-- What every step keeps, every run keeps. -/
theorem runTicks_keeps {P : State → Prop} (hstep : ∀ s t, P s → step s = .next t → P t) (n : Nat) {s : State}
    (h : P s) : P (runTicks n s) := by
  induction n generalizing s with
  | zero => exact h
  | succ n ih =>
    obtain hs | ⟨r, hr⟩ := running_or_faulted s
    · obtain ⟨t, ht⟩ := step_of_running hs
      rw [runTicks_succ_of_next ht]
      exact ih (hstep s t h ht)
    · rwa [runTicks_of_faulted hr]

/-! ## Construction (R57, R80, R81) -/

/-- Settles O14: the fields of the constructed state. -/
theorem constructedRegisters : Obligations.ConstructedRegisters := by
  intro l s h
  obtain ⟨-, rfl⟩ := construct_eq_some.mp h
  exact ⟨rfl, rfl, rfl, rfl, rfl, rfl, rfl, rfl⟩

/-- Settles O15: a program fits exactly if it is not longer than ROM_SIZE. -/
theorem constructionRejectsOverlongPrograms : Obligations.ConstructionRejectsOverlongPrograms := by
  intro l
  simp [construct, Launch.fits]

/-- Settles O16: the reset state is the constructed one, with nothing laid out in either memory. -/
theorem resetIsConstruction : Obligations.ResetIsConstruction := by
  refine ⟨rfl, rfl, rfl, rfl, rfl, rfl, rfl, ?_, fun _ => rfl, fun _ => rfl⟩
  intro f
  cases f <;> decide

theorem constructedState_inv {l : Launch} (h : l.wellFormed = true) : (constructedState l).Inv := by
  obtain ⟨hlegal, hfits⟩ := (Bool.and_eq_true _ _).mp h
  exact {
    legal := hlegal
    rom_wf := Memory.ofBytes_wf _
    rom_within := Memory.ofBytes_within (of_decide_eq_true hfits)
    ram_wf := Memory.ofBytes_wf _
    ram_within := Memory.ofBytes_within (Nat.zero_le _)
    sp_constant := rfl
    b_constant := rfl
    u_constant := rfl
    v_documented := fun _ hv => hv
    fault_sound := nofun }

/-- Settles O18: a legal launch fits, and what it constructs meets the invariant. -/
theorem legalLaunchMeetsInvariant : Obligations.LegalLaunchMeetsInvariant := by
  intro l h
  exact ⟨_, construct_eq_some.mpr ⟨((Bool.and_eq_true _ _).mp h).2, rfl⟩, constructedState_inv h⟩

/-- Settles O17: the reset state is a legal construction. -/
theorem resetMeetsInvariant : Obligations.ResetMeetsInvariant :=
  constructedState_inv (l := { cfg := Config.spec, program := [] }) (by decide)

/-! ## The invariant (R34, R44 to R46, R90, R251 to R254) -/

/-- No row writes B or U. -/
theorem b_u_not_written (variant : AdcVariant) (i : Instr) :
    .b ∉ (signalsOf variant i).flagsWritten ∧ .u ∉ (signalsOf variant i).flagsWritten := by
  cases i
  case adc => cases variant <;> simp [signalsOf, signalsAdc, signalsZp]
  all_goals simp [signalsOf, signalsZp, signalsPlain, signalsRaising]

/-- Under Documented only CLV writes V. -/
theorem v_not_written {i : Instr} (hi : i ≠ .clv) : .v ∉ (signalsOf .documented i).flagsWritten := by
  cases i
  case clv => exact absurd rfl hi
  all_goals simp [signalsOf, signalsAdc, signalsZp, signalsPlain, signalsRaising]

/-- Under Documented no instruction sets V (R46, R213). -/
theorem exec_v_documented {i : Instr} {s t : State} (h : exec i s = .next t) (hv : s.cfg.adcVariant = .documented)
    (ht : t.p.v = true) : s.p.v = true := by
  by_cases hi : i = .clv
  · subst hi
    obtain rfl := Host.Outcome.next.inj h
    cases ht
  · exact (exec_flagsKept h .v (hv ▸ v_not_written hi)).symm.trans ht

theorem exec_ram_wf {i : Instr} {s t : State} (h : exec i s = .next t) (wf : s.ram.wf = true) : t.ram.wf = true := by
  obtain hram | ⟨zp, v, -, -, hram⟩ := exec_ram h
  · rwa [hram]
  · rw [hram]
    exact Memory.write_wf wf _ v

theorem exec_ram_within {i : Instr} {s t : State} (h : exec i s = .next t)
    (within : s.ram.within s.cfg.ramSize = true) : t.ram.within s.cfg.ramSize = true := by
  obtain hram | ⟨zp, v, -, hrange, hram⟩ := exec_ram h
  · rwa [hram]
  · rw [hram]
    exact Memory.write_within within hrange

/-- Execution keeps the invariant, if the fault it may record is sound. -/
theorem exec_keeps_inv {i : Instr} {s t : State} (hi : s.Inv) (h : exec i s = .next t)
    (hsound : ∀ r, t.halt = .faulted r → FaultSound t r) : t.Inv := by
  obtain ⟨-, -, -, -, hsp, hrom, hcfg, -⟩ := onlyTheDestinationChanges i s t h
  obtain ⟨hb, hu⟩ := b_u_not_written s.cfg.adcVariant i
  have hpb : t.p.b = s.p.b := exec_flagsKept h .b hb
  have hpu : t.p.u = s.p.u := exec_flagsKept h .u hu
  exact {
    legal := by rw [hcfg]; exact hi.legal
    rom_wf := by rw [hrom]; exact hi.rom_wf
    rom_within := by rw [hrom, hcfg]; exact hi.rom_within
    ram_wf := exec_ram_wf h hi.ram_wf
    ram_within := by rw [hcfg]; exact exec_ram_within h hi.ram_within
    sp_constant := by rw [hsp]; exact hi.sp_constant
    b_constant := by rw [hpb, hcfg]; exact hi.b_constant
    u_constant := by rw [hpu, hcfg]; exact hi.u_constant
    v_documented := by
      rw [hcfg]
      exact fun hv ht => hi.v_documented hv (exec_v_documented h hv ht)
    fault_sound := hsound }

/-- The invariant speaks of PC and the run status in the fault's clause alone. -/
theorem inv_of_pc_halt {s : State} (hi : s.Inv) {q : Addr} {halt : Halt}
    (hsound : ∀ r, halt = .faulted r → FaultSound { s with pc := q, halt := halt } r) :
    ({ s with pc := q, halt := halt } : State).Inv :=
  { hi with fault_sound := hsound }

/-- Legal sizes leave no data access out of range (R90). -/
theorem inRange_of_legal {s : State} (h : s.cfg.legal = true) (zp : Byte) : InRange s zp := by
  have hzp := zp.isLt
  simp only [Config.legal, Bool.and_eq_true, decide_eq_true_eq] at h
  rw [InRange, dataAddr_toNat]
  omega

/-- A fault recorded at its place is sound, if the parameters are legal and the state's own. -/
theorem RecordsAt.sound {s t : State} {r : Fault} (h : RecordsAt s t.pc r) (hlegal : s.cfg.legal = true)
    (ht : t = recording { s with pc := t.pc } r) : FaultSound t r := by
  obtain ⟨hplace, hvariant⟩ := h
  have hcfg : t.cfg = s.cfg := by rw [ht]; rfl
  have hp : t.p = s.p := by rw [ht]; rfl
  match r with
  | .illegalOpcode op =>
    obtain ⟨-, -, hop⟩ := hplace
    exact opcodeEntry_eq_none_iff.mpr hop
  | .unimplemented op =>
    obtain ⟨-, hop, -⟩ := hplace
    exact hop
  | .memoryOutOfRange .program addr =>
    obtain ⟨haddr, hsize, -⟩ := hplace
    exact ⟨haddr, hcfg ▸ hsize⟩
  | .memoryOutOfRange .data addr =>
    obtain ⟨-, rfl, hsize⟩ := hplace
    exact absurd (inRange_of_legal hlegal _) (Nat.not_lt.mpr hsize)
  | .decimalModeUnmodelled op =>
    obtain ⟨-, hop, -, hd⟩ := hplace
    exact ⟨hop, hcfg ▸ hvariant op rfl, hp ▸ hd⟩

/-- Settles O19: the fetch moves PC alone, execution keeps every clause, and a recorded fault is sound. -/
theorem stepKeepsInvariant : Obligations.StepKeepsInvariant := by
  intro s t hi h
  have hs := running_of_step h
  have hsound : ∀ r, t.halt = .faulted r → FaultSound t r := fun r hr =>
    have ⟨hrecording, hat⟩ := step_records hs h hr
    hat.sound hi.legal hrecording
  obtain ⟨q, r, -, hstep⟩ | ⟨i, q, -, hstep⟩ := step_cases hs
  · obtain rfl := Host.Outcome.next.inj (hstep.symm.trans h)
    exact inv_of_pc_halt hi hsound
  · have hi' : ({ s with pc := q } : State).Inv :=
      inv_of_pc_halt hi fun r hr => nomatch hs.symm.trans hr
    exact exec_keeps_inv hi' (hstep.symm.trans h) hsound

/-- Settles O20: construction meets the invariant and every step keeps it. -/
theorem reachableStatesMeetInvariant : Obligations.ReachableStatesMeetInvariant := by
  intro l s n hl h
  obtain ⟨-, rfl⟩ := construct_eq_some.mp h
  exact runTicks_keeps stepKeepsInvariant n (constructedState_inv hl)

end Sys2Proof.Machine

/-! # Proofs of the family other, part 6: what execution does not depend on -/

namespace Sys2Proof.Machine

open Sys2Proof.Stated

/-! ## Two runs of one record

A relation of two states that a record overlooks: everything the record reads is alike in the two, and everything it
writes keeps them related. -/

/-- The record `sig` overlooks what `R` lets differ. Where the second state is a change of the first that the field
does not see, the field holds by definition. -/
structure Overlooks (sig : ControlSignals) (R : State → State → Prop) : Prop where
  cfg : ∀ s s', R s s' → s'.cfg = s.cfg := by rintro _ _ rfl; rfl
  raised : ∀ s s', R s s' → raisedNow sig s' = raisedNow sig s := by rintro _ _ rfl; rfl
  read : sig.dataRead = true → ∀ s s' zp, R s s' → s'.readZp zp = s.readZp zp := by rintro - _ _ _ rfl; rfl
  values : ∀ s s' m, R s s' → sig.values s' m = sig.values s m := by rintro _ _ _ rfl; rfl
  raise : ∀ s s' r, R s s' → R (s.raise r) (s'.raise r) := by rintro _ _ _ rfl; rfl
  flags : ∀ s s' m, R s s' → R { s with p := sig.flags s m } { s' with p := sig.flags s' m } := by
    rintro _ _ _ rfl; rfl
  setA : sig.destination = some .a → ∀ s s' v, R s s' → R (s.setA v) (s'.setA v) := by rintro - _ _ _ rfl; rfl
  setX : sig.destination = some .x → ∀ s s' v, R s s' → R (s.setX v) (s'.setX v) := by rintro - _ _ _ rfl; rfl
  setY : sig.destination = some .y → ∀ s s' v, R s s' → R (s.setY v) (s'.setY v) := by rintro - _ _ _ rfl; rfl
  setPc : ∀ s s' q, R s s' → R (s.setPc q) (s'.setPc q) := by rintro _ _ _ rfl; rfl
  write : sig.destination = some .mem → ∀ s s' a v, R s s' →
    R { s with ram := s.ram.write a v } { s' with ram := s'.ram.write a v } := by rintro - _ _ _ _ rfl; rfl

/-- Two outcomes of an instruction's pseudocode: related states, or one fault. -/
inductive SameOutcome (R : State → State → Prop) : Except Fault State → Except Fault State → Prop where
  | ok {t t' : State} (h : R t t') : SameOutcome R (.ok t) (.ok t')
  | error (r : Fault) : SameOutcome R (.error r) (.error r)

section TwoRuns

variable {sig : ControlSignals} {R : State → State → Prop} {s s' : State}

theorem Overlooks.writeZp (h : Overlooks sig R) (hd : sig.destination = some .mem) (hs : R s s') (zp v : Byte) :
    SameOutcome R (s.writeZp zp v) (s'.writeZp zp v) := by
  have hcfg := h.cfg s s' hs
  by_cases hrange : InRange s zp
  · have hrange' : InRange s' zp := by rwa [InRange, hcfg]
    rw [writeZp_of_inRange hrange, writeZp_of_inRange hrange']
    exact .ok (h.write hd _ _ _ _ hs)
  · have hrange' : ¬ InRange s' zp := by rwa [InRange, hcfg]
    rw [writeZp_of_not_inRange hrange, writeZp_of_not_inRange hrange']
    exact .error _

theorem Overlooks.writeDestination (h : Overlooks sig R) (hs : R s s') (values : List Nat) (exact : Nat) :
    SameOutcome R (writeDestination sig s values exact) (writeDestination sig s' values exact) := by
  unfold Machine.writeDestination
  match hd : sig.destination with
  | some .a => exact .ok (h.setA hd _ _ _ hs)
  | some .x => exact .ok (h.setX hd _ _ _ hs)
  | some .y => exact .ok (h.setY hd _ _ _ hs)
  | some .mem =>
    cases sig.dataWrite with
    | true => exact h.writeZp hd hs _ _
    | false => exact .ok hs
  | some .pc =>
    rw [h.cfg s s' hs]
    refine .ok ?_
    split
    · exact h.setPc _ _ _ hs
    · exact hs
  | some .imm | some (.flag _) | none => exact .ok hs

theorem Overlooks.result (h : Overlooks sig R) (hs : R s s') (m : Byte) :
    SameOutcome R (sig.result s m) (sig.result s' m) := by
  unfold ControlSignals.result ControlSignals.exact
  rw [h.values s s' m hs]
  exact h.writeDestination (h.flags s s' m hs) _ _

theorem Overlooks.conclude (h : Overlooks sig R) (hs : R s s') {outcome outcome' : Except Fault State}
    (ho : SameOutcome R outcome outcome') :
    ∃ t t', s.conclude outcome = .next t ∧ s'.conclude outcome' = .next t' ∧ R t t' := by
  cases ho with
  | ok ht => exact ⟨_, _, rfl, rfl, ht⟩
  | error r => exact ⟨_, _, rfl, rfl, h.raise s s' r hs⟩

/-- Related states are taken to related states. -/
theorem Overlooks.datapath (h : Overlooks sig R) (hs : R s s') :
    ∃ t t', datapath sig s = .next t ∧ datapath sig s' = .next t' ∧ R t t' := by
  match hraised : raisedNow sig s with
  | some r =>
    have hraised' := (h.raised s s' hs).trans hraised
    exact ⟨_, _, datapath_of_raised hraised, datapath_of_raised hraised', h.raise s s' r hs⟩
  | none =>
    have hraised' := (h.raised s s' hs).trans hraised
    match hread : sig.dataRead with
    | false =>
      rw [datapath_of_no_read hraised hread, datapath_of_no_read hraised' hread]
      exact h.conclude hs (h.result hs 0)
    | true =>
      rw [datapath_of_read hraised hread, datapath_of_read hraised' hread, h.read hread s s' _ hs]
      refine h.conclude hs ?_
      match s.readZp (sig.operand.getD 0) with
      | .ok m => exact h.result hs m
      | .error r => exact .error r

end TwoRuns

theorem exec_related {i : Instr} {s s' : State} {R : State → State → Prop}
    (h : Overlooks (signalsOf s.cfg.adcVariant i) R) (hs : R s s') :
    ∃ t t', exec i s = .next t ∧ exec i s' = .next t' ∧ R t t' := by
  rw [exec_eq_datapath i s, exec_eq_datapath i s', h.cfg s s' hs]
  exact h.datapath hs

/-- Where the second state is a change of the first, so is what is answered. -/
theorem exec_map {i : Instr} {s : State} {f : State → State}
    (h : Overlooks (signalsOf s.cfg.adcVariant i) fun t t' => t' = f t) : exec i (f s) = mapNext f (exec i s) := by
  obtain ⟨t, t', ht, ht', rfl⟩ := exec_related h rfl
  rw [ht, ht', mapNext]

/-! ## What a record reads -/

theorem values_congr {sig : ControlSignals} {s s' : State} {m : Byte}
    (h : ∀ place ∈ sig.sources, ∀ operand, sourceValue s' operand m place = sourceValue s operand m place) :
    sig.values s' m = sig.values s m :=
  List.map_congr_left fun place hplace => h place hplace _

/-- A flag's new value depends on its old one and, for V alone, on A beside the exact result (R142). -/
theorem flagValue_congr {s s' : State} {alu : AluOp} {f : Flag} {m : Byte} {exact : Nat}
    (hp : s'.p.get f = s.p.get f) (ha : s'.a = s.a ∨ f ≠ .v ∨ alu = .flagClear) :
    flagValue alu s' m exact f = flagValue alu s m exact f := by
  cases f
  case v =>
    obtain ha | hne | rfl := ha
    · cases alu <;> simp [flagValue, ha]
    · exact absurd rfl hne
    · rfl
  case c | z | n => cases alu <;> rfl
  case i | d | b | u => cases alu <;> simp [flagValue, hp]

/-- Two states with one P that agree on a record's values, and on A where it computes V, give it the same P. -/
theorem flags_congr {sig : ControlSignals} {s s' : State} {m : Byte} (hvalues : sig.values s' m = sig.values s m)
    (hp : s'.p = s.p) (ha : s'.a = s.a ∨ .v ∉ sig.flagsWritten ∨ sig.alu = .flagClear) :
    sig.flags s' m = sig.flags s m := by
  unfold ControlSignals.flags ControlSignals.exact
  rw [hvalues, hp]
  refine List.foldl_ext _ _ _ fun p f hf => congrArg (p.set f) (flagValue_congr (by rw [hp]) ?_)
  exact ha.imp_right (Or.imp_left fun hv hfv => hv (hfv ▸ hf))

/-! ## ROM, SP and RAM (R34, R71, R72) -/

theorem overlooks_rom (sig : ControlSignals) (rom : Memory) : Overlooks sig fun t t' => t' = { t with rom := rom } where

theorem overlooks_sp (sig : ControlSignals) (v : Byte) : Overlooks sig fun t t' => t' = { t with sp := v } where

/-- A row without a data access overlooks RAM. -/
theorem overlooks_ram {variant : AdcVariant} {i : Instr} (h : ¬ ReachesRam i) (ram : Memory) :
    Overlooks (signalsOf variant i) fun t t' => t' = { t with ram := ram } where
  read hread := absurd (reachesRam_of_dataAccess (.inl hread)) h
  write hd := by
    obtain ⟨zp, -, -, hwrite⟩ := row_of_mem_destination hd
    exact absurd (reachesRam_of_dataAccess (.inr hwrite)) h

/-- Settles O54: the other rows have no data access, so they overlook RAM. -/
theorem onlySevenInstructionsReachRam : Obligations.OnlySevenInstructionsReachRam :=
  fun _ _ ram h => exec_map (f := fun t => { t with ram := ram }) (overlooks_ram h ram)

/-- ROM and the parameters after a tick. -/
theorem step_rom_cfg {s t : State} (h : step s = .next t) : t.rom = s.rom ∧ t.cfg = s.cfg := by
  obtain ⟨q, r, -, hstep⟩ | ⟨i, q, -, hstep⟩ := step_cases (running_of_step h)
  · obtain rfl := Host.Outcome.next.inj (hstep.symm.trans h)
    exact ⟨rfl, rfl⟩
  · obtain ⟨-, -, -, -, -, hrom, hcfg, -⟩ := onlyTheDestinationChanges i _ t (hstep.symm.trans h)
    exact ⟨hrom, hcfg⟩

/-- Settles O51: every record overlooks ROM, and no step writes it. -/
theorem programSpaceIsNeverData : Obligations.ProgramSpaceIsNeverData := by
  constructor
  · intro i s rom
    exact exec_map (f := fun t => { t with rom := rom }) (overlooks_rom _ rom)
  · intro n s
    refine runTicks_keeps (P := fun u => u.rom = s.rom ∧ u.cfg = s.cfg) ?_ n ⟨rfl, rfl⟩
    rintro u v ⟨hrom, hcfg⟩ h
    obtain ⟨hrom', hcfg'⟩ := step_rom_cfg h
    exact ⟨hrom'.trans hrom, hcfg'.trans hcfg⟩

/-! ## Two runs of one step -/

/-- A change that fetch passes on and every instruction's record overlooks is one the step overlooks. -/
theorem step_related {s : State} {f : State → State} {R : State → State → Prop} (hs : s.Running)
    (hhalt : (f s).halt = s.halt) (hfetch : fetch (f s) = (fetch s).map f) (hf : ∀ t, R t (f t))
    (hraise : ∀ t r, R (t.raise r) ((f t).raise r))
    (hexec : ∀ i, Overlooks (signalsOf s.cfg.adcVariant i) R) :
    ∃ t t', step s = .next t ∧ step (f s) = .next t' ∧ R t t' := by
  have hs' : (f s).Running := hhalt.trans hs
  match h : fetch s with
  | .raised t =>
    rw [h] at hfetch
    exact ⟨t, f t, step_of_raised hs h, step_of_raised hs' hfetch, hf t⟩
  | .decoded (.illegal op) t =>
    rw [h] at hfetch
    exact ⟨_, _, step_of_illegal hs h, step_of_illegal hs' hfetch, hraise t _⟩
  | .decoded (.instr i) t =>
    rw [h] at hfetch
    obtain ⟨rfl, -⟩ := fetchConsumesExactlyTheInstruction.1 s t i h
    rw [step_of_instr hs h, step_of_instr hs' hfetch]
    exact exec_related (hexec i) (hf _)

/-- Settles O52: fetch passes SP on, and every record overlooks it. -/
theorem stackPointerIsInert : Obligations.StackPointerIsInert := by
  intro s v
  obtain hs | ⟨r, hr⟩ := running_or_faulted s
  · have hfetch := fetch_map (fun t => { t with sp := v }) (fun _ => rfl) (fun _ => rfl) (fun _ => rfl)
      (fun _ _ => rfl) (fun _ _ => rfl) s
    obtain ⟨t, t', ht, ht', rfl⟩ := step_related (R := fun t t' => t' = { t with sp := v }) hs rfl hfetch
      (fun _ => rfl) (fun _ _ => rfl) (fun i => overlooks_sp _ v)
    rw [ht, ht', mapNext]
  · have hr' : ({ s with sp := v } : State).halt = .faulted r := hr
    rw [step_faulted hr, step_faulted hr', mapNext]

/-! ## A, X and Y (R31 to R33, R109) -/

/-- What each source reads. -/
theorem sourceValue_congr {s s' : State} {operand m : Byte} {place : Place} (ha : place = .a → s'.a = s.a)
    (hx : place = .x → s'.x = s.x) (hy : place = .y → s'.y = s.y) (hpc : s'.pc = s.pc)
    (hp : ∀ f, place = .flag f → s'.p.get f = s.p.get f) :
    sourceValue s' operand m place = sourceValue s operand m place := by
  cases place with
  | a => exact congrArg BitVec.toNat (ha rfl)
  | x => exact congrArg BitVec.toNat (hx rfl)
  | y => exact congrArg BitVec.toNat (hy rfl)
  | pc => exact congrArg BitVec.toNat hpc
  | mem | imm => rfl
  | flag f => exact congrArg Bool.toNat (hp f rfl)

/-- Two states that agree on what a record names as its sources give it the same values. -/
theorem values_of_not_source {sig : ControlSignals} {s s' : State} {m : Byte} (ha : .a ∈ sig.sources → s'.a = s.a)
    (hx : .x ∈ sig.sources → s'.x = s.x) (hy : .y ∈ sig.sources → s'.y = s.y) (hpc : s'.pc = s.pc)
    (hp : ∀ f, .flag f ∈ sig.sources → s'.p.get f = s.p.get f) : sig.values s' m = sig.values s m :=
  values_congr fun _ hplace _ => sourceValue_congr (fun h => ha (h ▸ hplace)) (fun h => hx (h ▸ hplace))
    (fun h => hy (h ▸ hplace)) hpc (fun f h => hp f (h ▸ hplace))

/-- A row that computes V has A among its sources. -/
theorem a_source_of_v_computed (variant : AdcVariant) (i : Instr) :
    .a ∈ (signalsOf variant i).sources ∨ .v ∉ (signalsOf variant i).flagsWritten ∨
      (signalsOf variant i).alu = .flagClear := by
  cases i
  case adc => cases variant <;> exact .inl (List.mem_cons_self ..)
  case clv => exact .inr (.inr rfl)
  all_goals simp [signalsOf, signalsZp, signalsPlain, signalsRaising]

theorem overlooks_a {variant : AdcVariant} {i : Instr} (hsource : .a ∉ (signalsOf variant i).sources)
    (hdest : (signalsOf variant i).destination ≠ some .a) (v : Byte) :
    Overlooks (signalsOf variant i) fun t t' => t' = { t with a := v } :=
  have hvalues : ∀ (s : State) m, (signalsOf variant i).values { s with a := v } m = (signalsOf variant i).values s m :=
    fun _ _ => values_of_not_source (fun h => absurd h hsource) (fun _ => rfl) (fun _ => rfl) rfl (fun _ _ => rfl)
  { values := by rintro s _ m rfl; exact hvalues s m
    flags := by
      rintro s _ m rfl
      rw [flags_congr (hvalues s m) rfl ((a_source_of_v_computed variant i).imp_left fun h => absurd h hsource)]
    setA := fun hd => absurd hd hdest }

theorem overlooks_x {sig : ControlSignals} (hsource : .x ∉ sig.sources) (hdest : sig.destination ≠ some .x) (v : Byte) :
    Overlooks sig fun t t' => t' = { t with x := v } :=
  have hvalues : ∀ (s : State) m, sig.values { s with x := v } m = sig.values s m :=
    fun _ _ => values_of_not_source (fun _ => rfl) (fun h => absurd h hsource) (fun _ => rfl) rfl (fun _ _ => rfl)
  { values := by rintro s _ m rfl; exact hvalues s m
    flags := by rintro s _ m rfl; rw [flags_congr (hvalues s m) rfl (.inl rfl)]
    setX := fun hd => absurd hd hdest }

theorem overlooks_y {sig : ControlSignals} (hsource : .y ∉ sig.sources) (hdest : sig.destination ≠ some .y) (v : Byte) :
    Overlooks sig fun t t' => t' = { t with y := v } :=
  have hvalues : ∀ (s : State) m, sig.values { s with y := v } m = sig.values s m :=
    fun _ _ => values_of_not_source (fun _ => rfl) (fun _ => rfl) (fun h => absurd h hsource) rfl (fun _ _ => rfl)
  { values := by rintro s _ m rfl; exact hvalues s m
    flags := by rintro s _ m rfl; rw [flags_congr (hvalues s m) rfl (.inl rfl)]
    setY := fun hd => absurd hd hdest }

/-- Settles O55: a row overlooks each register it names neither as source nor as destination. -/
theorem unnamedRegistersPlayNoPart : Obligations.UnnamedRegistersPlayNoPart := by
  intro i s v
  exact ⟨fun hsource hdest => exec_map (f := fun t => { t with a := v }) (overlooks_a hsource hdest v),
    fun hsource hdest => exec_map (f := fun t => { t with x := v }) (overlooks_x hsource hdest v),
    fun hsource hdest => exec_map (f := fun t => { t with y := v }) (overlooks_y hsource hdest v)⟩

/-! ## Flags no instruction reads (R41 to R47) -/

theorem status_set_set_same (p : Status) (f : Flag) (b b' : Bool) : (p.set f b).set f b' = p.set f b' := by
  cases f <;> rfl

theorem status_set_set_comm (p : Status) {f g : Flag} (h : f ≠ g) (b b' : Bool) :
    (p.set f b).set g b' = (p.set g b').set f b :=
  Status.ext_get fun k => by
    by_cases hf : k = f
    · simp [hf, h]
    · simp [hf]

/-- Writing the same flags with the same values, but for one flag, to registers that differ in that flag alone. -/
theorem foldl_set_congr {f : Flag} {value value' : Flag → Bool} (h : ∀ g, g ≠ f → value' g = value g) (l : List Flag)
    (p : Status) (b : Bool) :
    ∃ b', l.foldl (fun p g => p.set g (value' g)) (p.set f b) = (l.foldl (fun p g => p.set g (value g)) p).set f b' := by
  induction l generalizing p b with
  | nil => exact ⟨b, rfl⟩
  | cons g l ih =>
    simp only [List.foldl_cons]
    by_cases hg : g = f
    · have hset : (p.set f b).set g (value' g) = (p.set g (value g)).set f (value' g) := by
        rw [hg, status_set_set_same, status_set_set_same]
      rw [hset]
      exact ih _ _
    · rw [h g hg, status_set_set_comm p (Ne.symm hg)]
      exact ih _ _

/-- The P a record gives to two states that differ in one flag, the values of its sources being alike. -/
theorem flags_setFlag {sig : ControlSignals} {s : State} {f : Flag} {b : Bool} {m : Byte}
    (hvalues : sig.values (s.setFlag f b) m = sig.values s m) :
    ∃ b', sig.flags (s.setFlag f b) m = (sig.flags s m).set f b' := by
  have hkept : ∀ exact g, g ≠ f → flagValue sig.alu (s.setFlag f b) m exact g = flagValue sig.alu s m exact g :=
    fun _ g hg => flagValue_congr (by simp [hg]) (.inl rfl)
  unfold ControlSignals.flags ControlSignals.exact
  rw [hvalues]
  exact foldl_set_congr (hkept _) _ _ b

theorem ne_c_of_unread {variant : AdcVariant} {f : Flag} (h : UnreadFlag variant f) : .c ≠ f := by
  rintro rfl
  exact h

/-- C is the one flag a row has among its sources. -/
theorem eq_c_of_flag_source {variant : AdcVariant} {i : Instr} {f : Flag}
    (h : .flag f ∈ (signalsOf variant i).sources) : f = .c := by
  cases i
  case adc zp =>
    cases variant with
    | documented => simp [signalsOf, signalsAdc, signalsZp] at h
    | nmos6502Binary => simpa [signalsOf, signalsAdc, signalsZp] using h
  case bcc => simpa [signalsOf, signalsPlain] using h
  all_goals simp [signalsOf, signalsZp, signalsPlain, signalsRaising] at h

/-- Under Documented no row's fault depends on D. -/
theorem raises_documented (i : Instr) :
    (signalsOf .documented i).alu = .idle ∨ (signalsOf .documented i).raises = none := by
  cases i
  case brk => exact .inl rfl
  all_goals exact .inr rfl

theorem raisedNow_setFlag {variant : AdcVariant} {i : Instr} {f : Flag} (hf : UnreadFlag variant f) (s : State)
    (b : Bool) : raisedNow (signalsOf variant i) (s.setFlag f b) = raisedNow (signalsOf variant i) s := by
  by_cases hd : f = .d
  · subst hd
    obtain rfl : variant = .documented := hf
    obtain hidle | hnone := raises_documented i
    · rw [raisedNow, raisedNow, if_pos (.inl hidle), if_pos (.inl hidle)]
    · rw [raisedNow_of_raises_none hnone, raisedNow_of_raises_none hnone]
  · have hpd : (s.setFlag f b).p.d = s.p.d := by
      have hget := Status.get_set s.p f .d b
      rwa [if_neg (Ne.symm hd)] at hget
    rw [raisedNow, raisedNow, hpd]

theorem overlooks_flag {variant : AdcVariant} {f : Flag} (hf : UnreadFlag variant f) (i : Instr) :
    Overlooks (signalsOf variant i) fun t t' => ∃ b, t' = t.setFlag f b :=
  have hvalues : ∀ (s : State) m b,
      (signalsOf variant i).values (s.setFlag f b) m = (signalsOf variant i).values s m := fun s _ b =>
    values_of_not_source (fun _ => rfl) (fun _ => rfl) (fun _ => rfl) rfl fun g hg => by
      rw [eq_c_of_flag_source hg, State.setFlag_p, Status.get_set, if_neg (ne_c_of_unread hf)]
  { cfg := by rintro s _ ⟨b, rfl⟩; rfl
    raised := by rintro s _ ⟨b, rfl⟩; exact raisedNow_setFlag hf s b
    read := by rintro - s _ zp ⟨b, rfl⟩; rfl
    values := by rintro s _ m ⟨b, rfl⟩; exact hvalues s m b
    raise := by rintro s _ r ⟨b, rfl⟩; exact ⟨b, rfl⟩
    flags := by
      rintro s _ m ⟨b, rfl⟩
      obtain ⟨b', hb'⟩ := flags_setFlag (hvalues s m b)
      exact ⟨b', congrArg (fun p => { s with p := p }) hb'⟩
    setA := by rintro - s _ v ⟨b, rfl⟩; exact ⟨b, rfl⟩
    setX := by rintro - s _ v ⟨b, rfl⟩; exact ⟨b, rfl⟩
    setY := by rintro - s _ v ⟨b, rfl⟩; exact ⟨b, rfl⟩
    setPc := by rintro s _ q ⟨b, rfl⟩; exact ⟨b, rfl⟩
    write := by rintro - s _ a v ⟨b, rfl⟩; exact ⟨b, rfl⟩ }

/-- Settles O53: fetch passes the flag on, and every record overlooks it. -/
theorem unreadFlagsSteerNothing : Obligations.UnreadFlagsSteerNothing := by
  intro s t f b hf h
  have hfetch := fetch_map (fun t => t.setFlag f b) (fun _ => rfl) (fun _ => rfl) (fun _ => rfl)
    (fun _ _ => rfl) (fun _ _ => rfl) s
  obtain ⟨u, u', hu, hu', b', rfl⟩ := step_related (running_of_step h) rfl hfetch (fun _ => ⟨b, rfl⟩)
    (fun _ _ => ⟨b, rfl⟩) (overlooks_flag hf)
  obtain rfl := Host.Outcome.next.inj (hu.symm.trans h)
  exact ⟨b', hu'⟩

end Sys2Proof.Machine

/-! # Proofs of the family other, part 7: a placed word, and inspection -/

namespace Sys2Proof.Machine

open Sys2Proof.Stated

/-! ## A table word placed at PC (log 7) -/

theorem length_le_two (i : Instr) : i.length ≤ 2 := by
  unfold Instr.length
  cases i.mode <;> decide

theorem decodeTableWord_eq_some {nbits w : Nat} {i : Instr} (h : decodeTableWord nbits w = some i) :
    ∃ rest, decode [tableByte nbits w 0, tableByte nbits w 1] = .ok (i, rest) := by
  unfold decodeTableWord at h
  split at h
  case h_1 rest hdecode =>
    cases h
    exact ⟨rest, hdecode⟩
  case h_2 => cases h

/-- The two bytes of a placed word stand at PC and after it; neither write covers the other. -/
theorem romByte_withFetchWord {s : State} (wf : s.rom.wf = true) (nbits w : Nat) :
    romByte (s.withFetchWord nbits w) s.pc = tableByte nbits w 0 ∧
      romByte (s.withFetchWord nbits w) (s.pc + 1#16) = tableByte nbits w 1 := by
  have hne : s.pc.toNat ≠ (s.pc + 1#16).toNat := by bv_omega
  constructor
  · exact (Memory.read_write_of_ne _ hne _).trans ((Memory.read_write wf _ _ _).trans (if_pos rfl))
  · exact (Memory.read_write (Memory.write_wf wf _ _) _ _ _).trans (if_pos rfl)

/-- ROM is large enough for both. -/
theorem withFetchWord_in_range (s : State) (nbits w : Nat) :
    s.pc.toNat < (s.withFetchWord nbits w).cfg.romSize ∧
      (s.pc + 1#16).toNat < (s.withFetchWord nbits w).cfg.romSize := by
  simp only [State.withFetchWord]
  split
  case isTrue hfits => exact hfits
  case isFalse => exact ⟨s.pc.isLt, (s.pc + 1#16).isLt⟩

/-- Settles O56: the placed bytes decode to the instruction and are in range, so the step runs it. -/
theorem placedWordRunsNext : Obligations.PlacedWordRunsNext := by
  intro s nbits w i wf h
  obtain ⟨rest, hdecode⟩ := decodeTableWord_eq_some h
  obtain ⟨h0, h1⟩ := romByte_withFetchWord wf nbits w
  obtain ⟨hlt0, hlt1⟩ := withFetchWord_in_range s nbits w
  rw [← h0, ← h1] at hdecode
  refine stepRunsTheDecodedInstruction (s.withFetchWord nbits w) i rest rfl hdecode fun k hk => ?_
  obtain rfl | rfl : k = 0 ∨ k = 1 := by
    have hlen := length_le_two i
    omega
  · rw [BitVec.add_zero]
    exact hlt0
  · exact hlt1

/-! ## Inspection (R284) -/

/-- The inspected bytes of ROM are those ProgRead gives. -/
theorem inspect_rom_getElem? (s : State) (addr : Addr) (b : Byte) :
    (inspect s).rom[addr.toNat]? = some b ↔ s.progRead addr = .ok b := by
  show (s.rom.bytes s.cfg.romSize)[addr.toNat]? = some b ↔ _
  rw [Memory.bytes_getElem?, Option.ite_none_right_eq_some, Option.some_inj, progRead_ok, eq_comm (a := b)]

/-- The inspected bytes of RAM are those MemRead gives. -/
theorem inspect_ram_getElem? (s : State) (addr : Addr) (b : Byte) :
    (inspect s).ram[addr.toNat]? = some b ↔ s.memRead addr = .ok b := by
  show (s.ram.bytes s.cfg.ramSize)[addr.toNat]? = some b ↔ _
  rw [Memory.bytes_getElem?, Option.ite_none_right_eq_some, Option.some_inj, memRead_ok, eq_comm (a := b)]

/-- Nothing of a core that meets the invariant is hidden: a canonical memory is known by its bytes. -/
theorem eq_of_inspect_eq {s t : State} (hs : s.Inv) (ht : t.Inv) (hcfg : s.cfg = t.cfg) (h : inspect s = inspect t) :
    s = t := by
  obtain ⟨ha, hx, hy, hsp, hpc, hp, hrom, hram, hhalt, -⟩ := Inspection.mk.inj h
  have hrom' : s.rom = t.rom :=
    Memory.eq_of_bytes hs.rom_wf ht.rom_wf hs.rom_within (hcfg ▸ ht.rom_within) (hrom.trans (by rw [hcfg]))
  have hram' : s.ram = t.ram :=
    Memory.eq_of_bytes hs.ram_wf ht.ram_wf hs.ram_within (hcfg ▸ ht.ram_within) (hram.trans (by rw [hcfg]))
  cases s
  cases t
  rw [State.mk.injEq]
  exact ⟨ha, hx, hy, hsp, hpc, hp, hrom', hram', hhalt, hcfg⟩

/-- Settles O60: the parts are the state's fields, and the bytes of the two memories those of the access primitives. -/
theorem inspectionShowsTheWholeState : Obligations.InspectionShowsTheWholeState := by
  refine ⟨fun s => ⟨rfl, rfl, rfl, rfl, rfl, rfl, rfl, rfl, Memory.bytes_length _ _, Memory.bytes_length _ _,
    fun addr b => ⟨inspect_rom_getElem? s addr b, inspect_ram_getElem? s addr b⟩⟩, ?_⟩
  exact fun s t => eq_of_inspect_eq

end Sys2Proof.Machine
